-- ==== Sys2Proof/Word.lean ====
section
/-! DEFINITION. The word types of the OS-Project SHA-256 Digest Engine (spec 00_scope.md section 6, R4).

Every value of the engine is unsigned (R111), so addition on these types is the spec's `+32` and `+64`:
the carry out of the top bit is dropped. -/

namespace Sys2Proof

/-- A byte, the spec's `u8`: one message byte, one cell of `PB` or of `DG` (R40). -/
abbrev Byte := BitVec 8

/-- A command word, the spec's 16-bit `cmd` (R60). -/
abbrev CmdWord := BitVec 16

/-- A 32-bit word, the spec's `u32`: one accumulator word, one schedule word (R4). -/
abbrev Word := BitVec 32

/-- A 64-bit word, the spec's `u64`: the total bit length (R15). -/
abbrev DWord := BitVec 64

end Sys2Proof
end

