-- ==== Sys2Proof/Syntax.lean ====
section
/-! DEFINITION. The commands of DE-CMD version 1 and the one command format (spec 30_encoding.md). -/

namespace Sys2Proof

/-- The commands: one constructor per row of spec/opcode_table.json (R61). `compress` has no opcode (R110), and
`UPDATE` and `HASH1` are the host's macros over these three (R69). -/
inductive Instr where
  /-- `INIT`: start a new digest computation (R80). -/
  | init
  /-- `UPD b`: absorb the message byte `b` (R85); every value of `b` is legal (R63). -/
  | upd (b : Byte)
  /-- `FINAL`: finish the message and produce the digest (R95). -/
  | final
  deriving DecidableEq, Repr

/-- The command format `C16` (R60): `op = cmd[15:8]`, `imm8 = cmd[7:0]`. -/
structure C16 where
  op : Byte
  imm8 : Byte
  deriving DecidableEq, Repr

end Sys2Proof
end

