-- ==== Sys2Proof/WellFormed.lean ====
section
/-! DEFINITION. Which raw `C16` terms are commands. A term of `Instr` needs no check of its own: its only operand is a
byte and R63 makes every byte legal. -/

namespace Sys2Proof

/-- The check of R65 on a raw command, on the three counts the rule gives: the operation code is assigned (not `0x00`,
not `0x04` or above), and for `INIT` and `FINAL` the immediate byte is zero. -/
def C16.wf (c : C16) : Bool :=
  (c.op == 0x01#8 && c.imm8 == 0x00#8) || c.op == 0x02#8 || (c.op == 0x03#8 && c.imm8 == 0x00#8)

end Sys2Proof
end

