-- ==== Sys2Proof/Decode.lean ====
section
/-! DEFINITION. Decoding and encoding of command words (spec 30_encoding.md), total on all 65536 words.

A command is one 16-bit word presented whole at the command port (R51, R67): there is no byte order to decide. -/

namespace Sys2Proof

/-- `cmd[15:8]` and `cmd[7:0]` (R60). -/
def splitWord (w : CmdWord) : C16 :=
  { op := w.extractLsb' 8 8, imm8 := w.extractLsb' 0 8 }

/-- The word whose fields are `c` (R60): `oooooooo iiiiiiii`. -/
def joinWord (c : C16) : CmdWord := c.op ++ c.imm8

/-- Why a word is illegal, by the classes of R65. All of them raise the one fault `IllegalCommand` (R164). -/
inductive IllegalWord where
  /-- `op = 0x00`: an idle or cleared bus is never a command. -/
  | opZero
  /-- `op ≥ 0x04`: no command has this code. -/
  | opUnassigned
  /-- `op` is that of `INIT` or `FINAL` and `imm8 ≠ 0` (R66: not ignored). -/
  | immNotZero
  deriving DecidableEq, Repr

/-- What a word decodes to: a command, or the reason it is none. -/
inductive Decoded where
  | instr (i : Instr)
  | illegal (why : IllegalWord)
  deriving DecidableEq, Repr

/-- The class of R65 a word that is no command falls into. -/
def illegalClass (w : CmdWord) : IllegalWord :=
  if (splitWord w).op = 0x00 then .opZero
  else if (splitWord w).op = 0x01 ∨ (splitWord w).op = 0x03 then .immNotZero
  else .opUnassigned

/-- `decode` of R70, in the rule's order of tests. -/
def decode (w : CmdWord) : Decoded :=
  if w = 0x0100 then .instr .init
  else if (splitWord w).op = 0x02 then .instr (.upd (splitWord w).imm8)
  else if w = 0x0300 then .instr .final
  else .illegal (illegalClass w)

/-- `encode` of R70. -/
def encode : Instr → CmdWord
  | .init => 0x0100
  | .upd b => 0x0200 ||| b.setWidth 16
  | .final => 0x0300

/-- The row of the opcode map (R61) a command belongs to: its `match` word. -/
def rowMatch : Instr → CmdWord
  | .init => 0x0100
  | .upd _ => 0x0200
  | .final => 0x0300

/-- The row of the opcode map (R61) a command belongs to: its `mask` word. -/
def rowMask : Instr → CmdWord
  | .init => 0xFFFF
  | .upd _ => 0xFF00
  | .final => 0xFFFF

/-- The words of a script are its commands' words in order (R68). -/
def encodeScript (cs : List Instr) : List CmdWord := cs.map encode

/-- The command a decoded word is, if it is one. -/
def Decoded.instr? : Decoded → Option Instr
  | .instr i => some i
  | .illegal _ => none

/-- The command word whose bits, numbered as spec/opcode_table.json numbers them, are the low `nbits` bits of `w`; the
bits above are zero. -/
def tableWord (nbits w : Nat) : CmdWord := BitVec.ofNat 16 (w % 2 ^ nbits)

/-- The command the decoder reads from an instruction of `nbits` bits with value `w`; every command is one 16-bit word
(R67), so nothing longer is one. -/
def decodeTableWord (nbits w : Nat) : Option Instr :=
  if nbits ≤ 16 then (decode (tableWord nbits w)).instr? else none

end Sys2Proof
end

