-- ==== Sys2Proof/Config.lean ====
section
/-! DEFINITION. What the spec leaves open: the free values (registers that hold "no value" and yet must hold
something, assumption log 1 and 2) and the OPEN parameters of the host's Boundary Service (R5). The engine itself has no
open parameter (spec 92_eei_decisions.md, "Open parameters, collected"). -/

namespace Sys2Proof.Config

/-- Free value: what accumulator word `i` holds after the reset numbered `n`. R27 gives it no value and R186 lets
no claim depend on it, so nothing in Lean can evaluate it. Assumption log 1. -/
opaque freeWord (n i : Nat) : Word

/-- Free value: what `TBL` holds after event `n`, a reset (R27) or a `FINAL` (R102). Assumption log 1 and 2. -/
opaque freeLength (n : Nat) : DWord

/-- Free value: what the 6-bit register `PL` holds after the reset numbered `n` (R27). Assumption log 1. -/
opaque freeFill (n : Nat) : BitVec 6

end Sys2Proof.Config

namespace Sys2Proof

/-- The OPEN parameters of the host operation `computeDigestAcrossBoundary` (R5, R153; 92_eei_decisions.md D22). The
engine does not know them: the model of the host takes them as an argument. -/
structure HostParams where
  /-- `MAX_INPUT_SIZE`, default 1024. -/
  maxInputSize : Nat
  /-- `SCRATCH_SIZE`, the size of each scratch buffer. -/
  scratchSize : Nat
  /-- `STATUS_InvalidLength`. -/
  invalidLength : Int
  /-- `STATUS_ResourceExhausted`. -/
  resourceExhausted : Int
  /-- `STATUS_InvalidSource`. -/
  invalidSource : Int
  /-- `STATUS_InvalidDestination`. -/
  invalidDestination : Int
  /-- `STATUS_EngineFault`. -/
  engineFault : Int
  deriving DecidableEq, Repr

/-- The five failure codes of the host call. -/
def HostParams.failureCodes (p : HostParams) : List Int :=
  [p.invalidLength, p.resourceExhausted, p.invalidSource, p.invalidDestination, p.engineFault]

/-- What R5, R153, R154 and R156 require of the OPEN parameters: at least one length is accepted, the sizes fit the
scratch buffers, `MAX_INPUT_SIZE` is below the engine's ceiling, and the failure codes are negative and pairwise
distinct. -/
abbrev HostParams.wf (p : HostParams) : Prop :=
  1 ≤ p.maxInputSize ∧ p.maxInputSize ≤ p.scratchSize ∧ 32 ≤ p.scratchSize ∧ p.maxInputSize < 2 ^ 61 ∧
    (∀ c ∈ p.failureCodes, c < 0) ∧ p.failureCodes.Pairwise (· ≠ ·)

end Sys2Proof
end

