-- ==== Sys2Proof/Machine/State.lean ====
section
/-! DEFINITION. The state of one engine (spec 10_state.md), as plain data, and the reasons a step can stop. -/

namespace Sys2Proof.Machine

/-- The lifecycle register `PHASE` (R18). -/
inductive Phase where
  /-- No `INIT` since reset. -/
  | uninitialized
  /-- `INIT` done, no byte absorbed since. -/
  | initialized
  /-- At least one byte absorbed since `INIT`. -/
  | absorbing
  /-- `FINAL` done. -/
  | finalized
  deriving DecidableEq, Repr

/-- The 2-bit code of a phase (R18). -/
def Phase.code : Phase → BitVec 2
  | .uninitialized => 0
  | .initialized => 1
  | .absorbing => 2
  | .finalized => 3

/-- The sticky fault register `FAULT` (R20). These are recorded in the state, as R163 says: a command that raises one
ends in a next state. -/
inductive FaultCode where
  /-- `None`: set by reset only. -/
  | none
  /-- `InvalidStateError`: `UPD` or `FINAL` in a wrong phase (R161). -/
  | invalidStateError
  /-- `LengthOverflow`: `UPD` past the largest message (R162). -/
  | lengthOverflow
  /-- `IllegalCommand`: a word that encodes no command (R164). -/
  | illegalCommand
  deriving DecidableEq, Repr

/-- The 2-bit code of a fault (R20). -/
def FaultCode.code : FaultCode → BitVec 2
  | .none => 0
  | .invalidStateError => 1
  | .lengthOverflow => 2
  | .illegalCommand => 3

/-- One sample of the input ports (R29), taken while no command is in flight (R191). -/
structure Pins where
  /-- `rst`: reset is asserted. -/
  rst : Bool
  /-- `cmd_valid`: the host offers `cmd`. -/
  cmdValid : Bool
  /-- `cmd`: the command word offered. -/
  cmd : CmdWord
  deriving DecidableEq, Repr

/-- A byte-addressed space of the engine (R40), `BLK` or `DG`, as the list of the bytes that hold a value. A byte that
is not listed holds no value (00_scope.md section 6, "no value"), and no read of it gives one. -/
abbrev Memory := List Host.Cell

/-- The canonical form of a space of `size` bytes: addresses strictly rising, all inside the space. Every byte value
may be listed: no byte equals what an unlisted address reads as, since that reads as no value. -/
abbrev Memory.wf (size : Nat) (m : Memory) : Prop :=
  (m.map Prod.fst).Pairwise (· < ·) ∧ ∀ c ∈ m, c.1 < size

/-- The architectural state of one engine (R10), then the model's own two fields. `W`, `a` to `h`, `T1`, `T2` and the
loop indices are transient and no state (R23, R24). -/
structure State where
  /-- `H[0..7]`, the accumulator (R11). -/
  h : Vector Word 8
  /-- `PB[0..63]`, the pending block, space `BLK` (R12, R14). -/
  pb : Memory
  /-- `PL`, the number of valid bytes of `PB`, 0 to 63 (R13). -/
  pl : BitVec 6
  /-- `TBL`, the bits compressed so far (R15). -/
  tbl : DWord
  /-- `PHASE` (R18). -/
  phase : Phase
  /-- `FAULT` (R20). -/
  fault : FaultCode
  /-- `DG[0..31]`, the digest register, space `DG` (R22). -/
  dg : Memory
  /-- The model's own: the samples the host still has for the input ports, first one first (assumption log 4). -/
  pins : List Pins
  /-- The model's own: how many events have drawn free values so far (assumption log 3). -/
  freeIx : Nat
  deriving DecidableEq, Repr

/-- The reasons for which a step, or a read of an output port, stops. None of them is one of the engine's own faults,
which are states (`FaultCode`). -/
inductive Fault where
  /-- Raised by `UPD` completing a block and by `FINAL` where a byte below `PL` holds no value, so that `compress` would
  read it. Safe: R14, R90 and R104 say no command reads such a byte, and no state with `Inv` raises it. -/
  | blockByteAbsent
  /-- Raised by a read of the digest port while `digest_valid = 0` (R22, 93_implementation_defined.md U5). Safe: the
  spec gives that read no value. -/
  | digestNotValid
  /-- Raised by a read of the digest port where `digest_valid = 1` and a byte of `DG` holds no value. Safe: R22 says
  this does not happen, and no state with `Inv` raises it. -/
  | digestByteAbsent
  deriving DecidableEq, Repr

/-- The reasons for which an instruction has no meaning. -/
inductive Refusal where
  /-- Raised by an arm of `exec` for an instruction the model gives no meaning yet. Safe: nothing is proved of it. No arm
  of this model raises it. -/
  | notModelled (mnemonic : String)
  deriving DecidableEq, Repr

/-- What a command, or a step, ends in. -/
abbrev Result := Host.Outcome State Fault Refusal

/-- The state reset number `n` leaves (R27, R185), with the host's further samples `pins`: `PHASE` and `FAULT` at the
values the spec states; `PB` and `DG` with no byte listed; `H`, `PL` and `TBL`, which hold no value, at free values
(assumption log 1). -/
def State.afterReset (n : Nat) (pins : List Pins) : State where
  h := Vector.ofFn fun i => Config.freeWord n i.val
  pb := []
  pl := Config.freeFill n
  tbl := Config.freeLength n
  phase := .uninitialized
  fault := .none
  dg := []
  pins := pins
  freeIx := n + 1

/-- The machine right after reset (R27): reset number 0, and the host offers nothing yet. -/
def State.reset : State := State.afterReset 0 []

end Sys2Proof.Machine
end

