-- ==== Sys2Proof/Machine/Ops.lean ====
section
/-! DEFINITION. The named operations over the engine's two byte spaces (spec 20_memory.md) and over its registers:
big-endian access, fault entry, the checks every command shares, and reset. -/

namespace Sys2Proof.Machine

/-- The byte at address `a`; `none` where that byte holds no value (R14). -/
def Memory.read : Memory → Nat → Option Byte
  | [], _ => none
  | c :: m, a => if c.1 = a then some c.2 else Memory.read m a

/-- One byte stored at address `a`, in the canonical form. -/
def Memory.write : Memory → Nat → Byte → Memory
  | [], a, b => [(a, b)]
  | c :: m, a, b =>
    if a < c.1 then (a, b) :: c :: m
    else if a = c.1 then (a, b) :: m
    else c :: Memory.write m a b

/-- Bytes stored at `a`, `a + 1`, and so on, in order. -/
def Memory.writeBytes (m : Memory) (a : Nat) : List Byte → Memory
  | [] => m
  | b :: bs => Memory.writeBytes (m.write a b) (a + 1) bs

/-- The `n` bytes of `v`, most significant first: byte `j` is `v[8(n-j)-1 : 8(n-j)-8]` (R42, R43). -/
def bigEndian (n : Nat) (v : BitVec (8 * n)) : List Byte :=
  (List.range n).map fun j => v.extractLsb' (8 * (n - 1 - j)) 8

/-- `MemWrite(m, a, n, v)` (00_scope.md section 6): `v` stored big-endian at `a` to `a + n - 1`. -/
def Memory.writeBE (m : Memory) (a n : Nat) (v : BitVec (8 * n)) : Memory :=
  m.writeBytes a (bigEndian n v)

/-- The number whose bytes, most significant first, are `bs` (R41). -/
def bytesValue (bs : List Byte) : Nat :=
  bs.foldl (fun acc b => acc * 256 + b.toNat) 0

/-- `n` bytes from address `a` on; `none` where one of them holds no value. -/
def Memory.readBytes (m : Memory) (a : Nat) : Nat → Option (List Byte)
  | 0 => some []
  | n + 1 =>
    match m.read a, Memory.readBytes m (a + 1) n with
    | some b, some bs => some (b :: bs)
    | _, _ => none

/-- `MemRead(m, a, n)` (00_scope.md section 6): the big-endian value of `n` bytes (R41, R52). -/
def Memory.readBE (m : Memory) (a n : Nat) : Option (BitVec (8 * n)) :=
  (m.readBytes a n).map fun bs => BitVec.ofNat (8 * n) (bytesValue bs)

/-- `n` zero bytes stored from `a` on (R98, R99). -/
def Memory.zeroFrom (m : Memory) (a : Nat) : Nat → Memory
  | 0 => m
  | n + 1 => Memory.zeroFrom (m.write a 0x00) (a + 1) n

/-- `while k < limit: PB[k] <- 0x00 ; k <- k + 1` (R95). -/
def Memory.zeroUpTo (m : Memory) (k limit : Nat) : Memory :=
  m.zeroFrom k (limit - k)

/-- A whole block: 64 bytes, all of which hold a value (R110). -/
abbrev Block := Vector Byte 64

/-- Whether addresses `0` to `n - 1` all hold a value. -/
def Memory.holdsBelow (m : Memory) (n : Nat) : Bool :=
  (List.range n).all fun a => (m.read a).isSome

/-- `PB[0..63]` as `compress` reads it (R12): `none` where a byte holds no value. The `getD` default is not used: the
test has found every byte. -/
def Memory.block? (m : Memory) : Option Block :=
  if m.holdsBelow 64 then some (Vector.ofFn fun i => (m.read i.val).getD 0) else none

/-- Words stored big-endian at `a`, `a + 4`, and so on (R43). -/
def Memory.writeWords (m : Memory) (a : Nat) : List Word → Memory
  | [] => m
  | w :: ws => Memory.writeWords (m.writeBE a 4 w) (a + 4) ws

/-- `raise F` (R163), taking a fault: `FAULT` records `F` and nothing else changes. There is no handler, no vector and no
saved state, and no command returns from a fault (R166): `resetEngine` is the only way on. -/
def State.raise (s : State) (f : FaultCode) : State := { s with fault := f }

/-- Reset (R185), a step of its own outside the command stream: the only thing that clears `FAULT` (R166). It abandons
any message; the host's further samples stay the host's. -/
def resetEngine (s : State) : State := State.afterReset s.freeIx s.pins

/-- The first check of every command (R165 (1), R167): while `FAULT ≠ None` the command is discarded. -/
def unlessFaulted (s : State) (k : Result) : Result :=
  if s.fault = .none then k else .next s

/-- Whether `UPD` and `FINAL` are legal in this phase (R19): `Initialized` or `Absorbing`. -/
def Phase.takesData : Phase → Bool
  | .initialized | .absorbing => true
  | .uninitialized | .finalized => false

/-- The phase check of `UPD` and `FINAL` (R165 (3), R89, R103). -/
def requireMessage (s : State) (k : Result) : Result :=
  if s.phase.takesData then k else .next (s.raise .invalidStateError)

/-- A word that encodes no command, accepted at the command port (R164, R165 (2)). -/
def illegalCommand (s : State) : Result :=
  unlessFaulted s (.next (s.raise .illegalCommand))

end Sys2Proof.Machine
end

