-- ==== Sys2Proof/Machine/Compress.lean ====
section
/-! DEFINITION. The family `compress` (spec 43_compress.md): the constants, the helper functions, the message schedule,
the 64 rounds and the add-back. It has no opcode (R110): `UPD` and `FINAL` run it. Every addition is modulo 2^32 (R111).
What the source only names, the spec supplies from the SHA-256 standard (93_implementation_defined.md G1 to G7). -/

namespace Sys2Proof.Machine

/-- The initial hash values `IV[0..7]` (R81). -/
def initialHash : Vector Word 8 :=
  #v[0x6a09e667, 0xbb67ae85, 0x3c6ef372, 0xa54ff53a, 0x510e527f, 0x9b05688c, 0x1f83d9ab, 0x5be0cd19]

/-- The table of `K` as R121 lays it out: the row at `t0` lists `K[t0]` to `K[t0+3]`. -/
def roundConstantRows : List (List Word) :=
  [[0x428a2f98, 0x71374491, 0xb5c0fbcf, 0xe9b5dba5],
   [0x3956c25b, 0x59f111f1, 0x923f82a4, 0xab1c5ed5],
   [0xd807aa98, 0x12835b01, 0x243185be, 0x550c7dc3],
   [0x72be5d74, 0x80deb1fe, 0x9bdc06a7, 0xc19bf174],
   [0xe49b69c1, 0xefbe4786, 0x0fc19dc6, 0x240ca1cc],
   [0x2de92c6f, 0x4a7484aa, 0x5cb0a9dc, 0x76f988da],
   [0x983e5152, 0xa831c66d, 0xb00327c8, 0xbf597fc7],
   [0xc6e00bf3, 0xd5a79147, 0x06ca6351, 0x14292967],
   [0x27b70a85, 0x2e1b2138, 0x4d2c6dfc, 0x53380d13],
   [0x650a7354, 0x766a0abb, 0x81c2c92e, 0x92722c85],
   [0xa2bfe8a1, 0xa81a664b, 0xc24b8b70, 0xc76c51a3],
   [0xd192e819, 0xd6990624, 0xf40e3585, 0x106aa070],
   [0x19a4c116, 0x1e376c08, 0x2748774c, 0x34b0bcb5],
   [0x391c0cb3, 0x4ed8aa4a, 0x5b9cca4f, 0x682e6ff3],
   [0x748f82ee, 0x78a5636f, 0x84c87814, 0x8cc70208],
   [0x90befffa, 0xa4506ceb, 0xbef9a3f7, 0xc67178f2]]

/-- The round constants `K[0..63]` (R121), row after row. -/
def roundConstants : List Word := roundConstantRows.flatten

/-- `SHR(n, x)`, logical right shift by `1 ≤ n ≤ 31` (R114). -/
def shr (n : Nat) (x : Word) : Word := x >>> n

/-- `ROTR(n, x)`, right rotation by `1 ≤ n ≤ 31` (R113): the bits that stay, and those shifted out come in at the top. -/
def rotr (n : Nat) (x : Word) : Word := shr n x ||| x <<< (32 - n)

/-! ### The message schedule, with the functions it uses -/

/-- `σ0` (R115). -/
def smallSigma0 (x : Word) : Word := rotr 7 x ^^^ rotr 18 x ^^^ shr 3 x

/-- `σ1` (R116). -/
def smallSigma1 (x : Word) : Word := rotr 17 x ^^^ rotr 19 x ^^^ shr 10 x

/-- `MemRead(BLK, 4*i, 4)` on a whole block: bytes `4i` to `4i + 3` as a big-endian word (R41). -/
def blockWord (blk : Block) (i : Fin 16) : Word :=
  blk[4 * i.val] ++ blk[4 * i.val + 1] ++ blk[4 * i.val + 2] ++ blk[4 * i.val + 3]

/-- The next schedule word `W[t]` after the words `W[0..t-1]` in `w`, for `t = w.length ≥ 16` (R124). The `getD`
defaults are not used: every index is below `t`. -/
def nextScheduleWord (w : List Word) : Word :=
  smallSigma1 (w.getD (w.length - 2) 0) + w.getD (w.length - 7) 0
    + smallSigma0 (w.getD (w.length - 15) 0) + w.getD (w.length - 16) 0

/-- `n` more schedule words, in increasing `t` (R124). -/
def extendSchedule : Nat → List Word → List Word
  | 0, w => w
  | n + 1, w => extendSchedule n (w ++ [nextScheduleWord w])

/-- The message schedule `W[0..63]` of a block (R123, R124). -/
def schedule (blk : Block) : List Word :=
  extendSchedule 48 (List.ofFn (blockWord blk))

/-! ### The rounds: `T1` with `Σ1` and `Ch`, `T2` with `Σ0` and `Maj` -/

/-- The working set `a` to `h` (R125), transient inside one `compress` (R23). -/
structure Working where
  a : Word
  b : Word
  c : Word
  d : Word
  e : Word
  f : Word
  g : Word
  h : Word
  deriving DecidableEq, Repr

/-- `Σ1` (R118). -/
def bigSigma1 (x : Word) : Word := rotr 6 x ^^^ rotr 11 x ^^^ rotr 25 x

/-- `Ch`, choose (R119). -/
def ch (x y z : Word) : Word := (x &&& y) ^^^ (~~~x &&& z)

/-- `T1` of a round with constant `k` and schedule word `w` (R126). -/
def roundT1 (k w : Word) (s : Working) : Word :=
  s.h + bigSigma1 s.e + ch s.e s.f s.g + k + w

/-- `Σ0` (R117). -/
def bigSigma0 (x : Word) : Word := rotr 2 x ^^^ rotr 13 x ^^^ rotr 22 x

/-- `Maj`, majority (R120). -/
def maj (x y z : Word) : Word := (x &&& y) ^^^ (x &&& z) ^^^ (y &&& z)

/-- `T2` of a round (R126). -/
def roundT2 (s : Working) : Word := bigSigma0 s.a + maj s.a s.b s.c

/-- One round (R126): the eight registers move together, from their values before the round. -/
def shaRound (s : Working) (k w : Word) : Working where
  a := roundT1 k w s + roundT2 s
  b := s.a
  c := s.b
  d := s.c
  e := s.d + roundT1 k w s
  f := s.e
  g := s.f
  h := s.g

/-- The load of the working set from the accumulator (R125). -/
def loadWorking (hin : Vector Word 8) : Working where
  a := hin[0]
  b := hin[1]
  c := hin[2]
  d := hin[3]
  e := hin[4]
  f := hin[5]
  g := hin[6]
  h := hin[7]

/-- Rounds with the given constants and schedule words, in order (R126). -/
def runRounds (kws : List (Word × Word)) (s : Working) : Working :=
  kws.foldl (fun s kw => shaRound s kw.1 kw.2) s

/-- The add-back of the working set into the accumulator (R127). -/
def addBack (hin : Vector Word 8) (s : Working) : Vector Word 8 :=
  #v[hin[0] + s.a, hin[1] + s.b, hin[2] + s.c, hin[3] + s.d,
     hin[4] + s.e, hin[5] + s.f, hin[6] + s.g, hin[7] + s.h]

/-! ### The whole operation -/

/-- `compress(Hin, BLK)` (R110, R128): total, with no failure mode (R129). Irreducible so that no proof unfolds its 64 rounds
unasked: Laws/Compress.lean has its equation. -/
@[irreducible] def compress (hin : Vector Word 8) (blk : Block) : Vector Word 8 :=
  addBack hin (runRounds (roundConstants.zip (schedule blk)) (loadWorking hin))

/-- The eight accumulator words, each big-endian, stored into an empty `DG` at `4i` (R43, R101). -/
def emitDigest (h : Vector Word 8) : Memory := Memory.writeWords [] 0 h.toList

end Sys2Proof.Machine
end

