-- ==== Sys2Proof/Machine/Operands.lean ====
section
/-! DEFINITION. The operands of the commands. The only operand a command word carries is the byte of `UPD`, taken as it
is (R63); the others are implicit and come from the registers: the fill index, the two halves of `TBL`, the length that
`FINAL` encodes. There are no register operands and no addressing modes (R46, R63). -/

namespace Sys2Proof.Machine

/-- The effective index of `UPD`'s store and of `FINAL`'s marker byte (R46): `PL`. -/
def State.fillIndex (s : State) : Nat := s.pl.toNat

/-- `TBL_HI = TBL[63:32]` (R16). -/
def State.tblHi (s : State) : Word := s.tbl.extractLsb' 32 32

/-- `TBL_LO = TBL[31:0]` (R16). -/
def State.tblLo (s : State) : Word := s.tbl.extractLsb' 0 32

/-- `2^64 − 512`, the largest value of `TBL` (R17 (b), R88). -/
def tblCeiling : DWord := 0xfffffffffffffe00

/-- `L = TBL + 8 * PL` (R96), the length `FINAL` encodes. -/
def State.encodedLength (s : State) : DWord := s.tbl + BitVec.ofNat 64 (8 * s.fillIndex)

/-- The condition of `LengthOverflow` (R88), on all 64 bits of `TBL`. -/
def State.atCeiling (s : State) : Bool := s.pl == 63 && s.tbl == tblCeiling

end Sys2Proof.Machine
end

