-- ==== Sys2Proof/Machine/Finalize.lean ====
section
/-! DEFINITION. The family `finalize`: the meaning of `FINAL` (spec 42_finalize.md). -/

namespace Sys2Proof.Machine

/-- The block with the marker byte `0x80` stored at index `PL`, directly after the last message byte (R97). -/
def markedBlock (s : State) : Memory := s.pb.write s.fillIndex 0x80

/-- Zero bytes from `k` up to index 55, then `L` big-endian at indices 56 to 63 (R99, R42). -/
def closeBlock (m : Memory) (k : Nat) (len : DWord) : Memory :=
  (m.zeroUpTo k 56).writeBE 56 8 len

/-- The blocks `FINAL` compresses, in order (R95): one where the length field fits after the marker, two where
`PL ≥ 56` (R98). `none` where a byte below `PL` holds no value. -/
def finalBlocks (s : State) : Option (List Block) :=
  let k := s.fillIndex + 1
  if 56 ≤ s.fillIndex then
    let full := (markedBlock s).zeroUpTo k 64
    match full.block?, (closeBlock full 0 s.encodedLength).block? with
    | some b1, some b2 => some [b1, b2]
    | _, _ => none
  else
    ((closeBlock (markedBlock s) k s.encodedLength).block?).map fun b => [b]

/-- The state after `FINAL` with final accumulator `h` (R101, R102): `DG` holds all 32 bytes of the digest, `PL = 0`, no
byte of `PB` holds a value, and `TBL` holds none: it takes a free value (assumption log 2). -/
def finishMessage (s : State) (h : Vector Word 8) : State :=
  { s with
    h := h, dg := emitDigest h, pl := 0, pb := [], phase := .finalized,
    tbl := Config.freeLength s.freeIx, freeIx := s.freeIx + 1 }

/-- Padding, the last one or two compressions, and the digest (R95), when the checks have passed. -/
def finishBlocks (s : State) : Result :=
  match finalBlocks s with
  | some bs => .next (finishMessage s (bs.foldl compress s.h))
  | none => .fault .blockByteAbsent

/-- `FINAL` (R95), its checks in the order of R165: discarded after a fault, `InvalidStateError` in a wrong phase
(R103). -/
def execFinal (s : State) : Result := unlessFaulted s (requireMessage s (finishBlocks s))

end Sys2Proof.Machine
end

