-- ==== Sys2Proof/Machine/Init.lean ====
section
/-! DEFINITION. The family `init`: the meaning of `INIT` (spec 40_init.md). -/

namespace Sys2Proof.Machine

/-- The effect of `INIT` when it is not discarded (R80): the initial hash values, `PL = 0`, `TBL = 0`,
`PHASE = Initialized`; `DG` holds no value again, and no byte of `PB` holds one, since `PL = 0` (R14). -/
def startMessage (s : State) : State :=
  { s with h := initialHash, pl := 0, tbl := 0, phase := .initialized, pb := [], dg := [] }

/-- `INIT` (R80): legal in every phase, and no failure mode. It does not clear `FAULT` (R166). -/
def execInit (s : State) : Result := unlessFaulted s (.next (startMessage s))

end Sys2Proof.Machine
end

