-- ==== Sys2Proof/Machine/Update.lean ====
section
/-! DEFINITION. The family `update`: the meaning of `UPD b` (spec 41_update.md). -/

namespace Sys2Proof.Machine

/-- Block completion (R87), once the 64th byte is stored: one `compress`, `TBL` advances by 512, `PL <- 0`. No byte of
`PB` holds a value after it (R14, R85 corner cases). -/
def completeBlock (s : State) : Result :=
  match s.pb.block? with
  | some blk => .next { s with h := compress s.h blk, tbl := s.tbl + 512, pl := 0, pb := [] }
  | none => .fault .blockByteAbsent

/-- Appending (R86) and what follows it (R85): the byte is stored at index `PL`, `PHASE` becomes `Absorbing`, and `PL`
advances or, at the 64th byte, the block completes. -/
def absorbByte (b : Byte) (s : State) : Result :=
  let stored := { s with pb := s.pb.write s.fillIndex b, phase := .absorbing }
  if s.pl < 63 then .next { stored with pl := s.pl + 1 } else completeBlock stored

/-- `UPD b` (R85), its checks in the order of R165: discarded after a fault, `InvalidStateError` in a wrong phase (R89),
`LengthOverflow` before any write where the block would take `TBL` past 64 bits (R88). -/
def execUpd (b : Byte) (s : State) : Result :=
  unlessFaulted s <| requireMessage s <|
    if s.atCeiling then .next (s.raise .lengthOverflow) else absorbByte b s

end Sys2Proof.Machine
end

