-- ==== Sys2Proof/Machine/Flags.lean ====
section
/-! DEFINITION. The status bits. The engine has no condition codes and no command sets a flag as a side effect (R25):
the only status bits are `PHASE` and `FAULT`, and these are their views at the output ports. -/

namespace Sys2Proof.Machine

/-- The status port (R21): `status[1:0] = PHASE`, `status[3:2] = FAULT`, `status[7:4] = 0`. -/
def State.status (s : State) : BitVec 8 := (0 : BitVec 4) ++ s.fault.code ++ s.phase.code

/-- The output `digest_valid` (R22): 1 exactly when `PHASE = Finalized` and `FAULT = None`. It is also what counts as a
successful digest computation (R169). -/
def State.digestValid (s : State) : Bool := s.phase == .finalized && s.fault == .none

end Sys2Proof.Machine
end

