-- ==== Sys2Proof/Machine/Ports.lean ====
section
/-! DEFINITION. The ports of the engine (spec 10_state.md R29): which samples of the input ports carry an accepted
command, and what the digest port shows. `status` and `digest_valid` are in Flags.lean. Reading an output port changes
nothing (R21, R46), so the reads are functions of the state and no step. -/

namespace Sys2Proof.Machine

/-- Whether the offered command is accepted (R29, R185): `cmd_valid` and `cmd_ready` are both 1. In a sample no command
is in flight (R191), so only an asserted `rst` keeps the engine from accepting. -/
def Pins.accepts (p : Pins) : Bool := p.cmdValid && !p.rst

/-- A read of the digest port `digest[255:0]` (R52): byte 0 of `DG` in the most significant place. While
`digest_valid = 0` the read gives no value and faults (R22). -/
def State.readDigest (s : State) : Host.Outcome (BitVec 256) Fault Refusal :=
  if s.digestValid then
    match s.dg.readBE 0 32 with
    | some v => .next v
    | none => .fault .digestByteAbsent
  else .fault .digestNotValid

end Sys2Proof.Machine
end

