-- ==== Sys2Proof/Machine/Accept.lean ====
section
/-! DEFINITION. What one sample of the input ports does to the engine: reset, an accepted command word, or nothing. -/

namespace Sys2Proof.Machine

/-- A command word is accepted (R163 to R167): a legal word runs its command, an illegal one raises
`IllegalCommand`. -/
def acceptWord (w : CmdWord) (s : State) : Result :=
  match decode w with
  | .instr i => exec i s
  | .illegal _ => illegalCommand s

/-- One sample of the input ports: `rst` resets, and a command offered with it is not accepted (R185); otherwise an
accepted command runs; otherwise the engine takes no step of its own (R3). -/
def takeSample (p : Pins) (s : State) : Result :=
  if p.rst then .next (resetEngine s)
  else if p.accepts then acceptWord p.cmd s
  else .next s

/-- A sample in which the host offers the word `w`. -/
def offer (w : CmdWord) : Pins := { rst := false, cmdValid := true, cmd := w }

end Sys2Proof.Machine
end

