-- ==== Sys2Proof/Machine/Step.lean ====
section
/-! DEFINITION. The step: the engine fetches nothing (R51), it takes the next sample of its input ports. -/

namespace Sys2Proof.Machine

/-- One step (R3): the next sample of the input ports is taken; where the host offers none, nothing happens. -/
def step (s : State) : Host.Outcome State Fault Refusal :=
  match s.pins with
  | [] => .next s
  | p :: rest => takeSample p { s with pins := rest }

/-- `s` with the instruction of `nbits` bits with value `w` offered at the command port as the very next sample. -/
def State.withFetchWord (s : State) (nbits w : Nat) : State :=
  { s with pins := offer (tableWord nbits w) :: s.pins }

end Sys2Proof.Machine
end

