-- ==== Sys2Proof/Machine/Digest.lean ====
section
/-! DEFINITION. What the engine computes, as one function of the message (R138), and the text form of a digest (R139).
Neither is a command: R138 is the reference the commands are held against, and `hex` is computed by the host. -/

namespace Sys2Proof.Machine

/-- `P = m ++ 0x80 ++ (0x00 × ((55 − n) mod 64)) ++ be64(8 * n)` (R138, R100). -/
def padMessage (m : List Byte) : List Byte :=
  m ++ [0x80] ++ List.replicate ((55 - (m.length : Int)) % 64).toNat 0x00
    ++ bigEndian 8 (BitVec.ofNat 64 (8 * m.length))

/-- Bytes `64*j` to `64*j + 63` of `p` (R138). The `getD` default is not used for a block inside `p`. -/
def blockAt (p : List Byte) (j : Nat) : Block :=
  Vector.ofFn fun i => p.getD (64 * j + i.val) 0

/-- `X_j` (R138): the accumulator after the first `j` blocks of `p`. -/
def chainValue (p : List Byte) : Nat → Vector Word 8
  | 0 => initialHash
  | j + 1 => compress (chainValue p j) (blockAt p j)

/-- The 32 bytes of an accumulator, each word big-endian (R43). -/
def digestBytes (h : Vector Word 8) : List Byte :=
  h.toList.flatMap (bigEndian 4)

/-- The digest of a message (R138). -/
def sha256 (m : List Byte) : List Byte :=
  digestBytes (chainValue (padMessage m) ((padMessage m).length / 64))

/-- `digit(v)` (R139). -/
def hexDigit (v : BitVec 4) : Char :=
  if v.toNat ≤ 9 then Char.ofNat (0x30 + v.toNat) else Char.ofNat (0x61 + (v.toNat - 10))

/-- `hex` (R139): two lowercase characters per byte, most significant nibble first. -/
def hexText (bs : List Byte) : List Char :=
  bs.flatMap fun b => [hexDigit (b.extractLsb' 4 4), hexDigit (b.extractLsb' 0 4)]

/-- The fixed self-test message `"hello world"` (R140). -/
def selfTestMessage : List Byte :=
  [0x68, 0x65, 0x6c, 0x6c, 0x6f, 0x20, 0x77, 0x6f, 0x72, 0x6c, 0x64]

/-- The text the self-test must display (R140, R188). -/
def selfTestText : List Char :=
  "b94d27b9934d3e08a52e52d7da7dabfac484efe37a5380ee9088f7ace2efcde9".toList

end Sys2Proof.Machine
end

