-- ==== Sys2Proof/Machine/Script.lean ====
section
/-! DEFINITION. Command streams: the macros `UPDATE` and `HASH1` (R69, R135, R136), their run through `exec`, and the
script notation of R68. The macros are the host's: the engine sees only the commands they expand to. -/

namespace Sys2Proof.Machine

/-- What follows a command that ended in a next state; a stop stays a stop. -/
def andThen (r : Result) (k : State → Result) : Result :=
  match r with
  | .next s => k s
  | .fault f => .fault f
  | .refused f => .refused f

/-- The commands of a script run in order (R49, R68). -/
def runScript : List Instr → State → Result
  | [], s => .next s
  | c :: cs, s => andThen (exec c s) (runScript cs)

/-- The expansion of `UPDATE m` (R69): one `UPD` per byte, nothing for the empty sequence. -/
def updateMacro (m : List Byte) : List Instr := m.map Instr.upd

/-- The expansion of `HASH1 m` (R69): `INIT`, `UPDATE m`, `FINAL`. -/
def hash1Macro (m : List Byte) : List Instr := Instr.init :: (updateMacro m ++ [Instr.final])

/-- `update(s, m)` (R135). -/
def update (m : List Byte) (s : State) : Result := runScript (updateMacro m) s

/-- The commands of `HASH1 m` (R136); the host then reads `DG`. -/
def hash1 (m : List Byte) (s : State) : Result := runScript (hash1Macro m) s

/-! ### Script notation (R68, R69) -/

/-- The pieces of a script line. -/
inductive Token where
  /-- A mnemonic or a number. -/
  | word (cs : List Char)
  /-- A quoted character. -/
  | chr (c : Char)
  /-- A quoted text. -/
  | text (cs : List Char)
  deriving DecidableEq, Repr

/-- Where the reader of a line stands: between pieces, inside a word, or inside a text (letters read so far, last one
first). -/
inductive LexMode where
  | gap
  | word (acc : List Char)
  | text (acc : List Char)
  deriving DecidableEq, Repr

/-- Whether a character separates pieces. -/
def isBlank (c : Char) : Bool := c == ' ' || c == '\t'

/-- The pieces of one line; text after `;` is a comment (R68). `none` where a quoted text does not end. DESIGN CHOICE: R68 and
R69 give no escape, and there is none here: the first `"` after the opening one ends a text, so a text that holds one cannot be
written, and between two `'` any one character stands for itself, a `'` too (assumption log 8). -/
def lexLine : LexMode → List Char → Option (List Token)
  | .gap, [] => some []
  | .gap, ['\'', c, '\''] => some [.chr c]
  | .gap, '\'' :: c :: '\'' :: d :: cs =>
    if isBlank d || d == ';' then (lexLine .gap (d :: cs)).map (Token.chr c :: ·) else none
  | .gap, c :: cs =>
    if c = ';' then some []
    else if isBlank c then lexLine .gap cs
    else if c = '"' then lexLine (.text []) cs
    else lexLine (.word [c]) cs
  | .word acc, [] => some [.word acc.reverse]
  | .word acc, c :: cs =>
    if c = ';' then some [.word acc.reverse]
    else if isBlank c then (lexLine .gap cs).map (Token.word acc.reverse :: ·)
    else lexLine (.word (c :: acc)) cs
  | .text _, [] => none
  | .text acc, c :: cs =>
    if c = '"' then (lexLine .gap cs).map (Token.text acc.reverse :: ·) else lexLine (.text (c :: acc)) cs

/-- The value of a decimal digit. -/
def decimalDigit (c : Char) : Option Nat :=
  if '0' ≤ c ∧ c ≤ '9' then some (c.toNat - '0'.toNat) else none

/-- The value of a hexadecimal digit, in either case (assumption log 8). -/
def hexDigitValue (c : Char) : Option Nat :=
  if 'a' ≤ c ∧ c ≤ 'f' then some (c.toNat - 'a'.toNat + 10)
  else if 'A' ≤ c ∧ c ≤ 'F' then some (c.toNat - 'A'.toNat + 10)
  else decimalDigit c

/-- A number in the given base from its digits, first digit most significant. -/
def digitsValue (base : Nat) (digit : Char → Option Nat) (acc : Nat) : List Char → Option Nat
  | [] => some acc
  | c :: cs =>
    match digit c with
    | some d => digitsValue base digit (acc * base + d) cs
    | none => none

/-- The byte of an ASCII character (R68, R69). -/
def asciiByte (c : Char) : Option Byte :=
  if c.toNat < 128 then some (BitVec.ofNat 8 c.toNat) else none

/-- `<byte>` of R68: `0x00` to `0xFF`, or a decimal 0 to 255, or a quoted ASCII character. -/
def tokenByte : Token → Option Byte
  | .chr c => asciiByte c
  | .text _ => none
  | .word ['0', 'x', p, q] => (digitsValue 16 hexDigitValue 0 [p, q]).map (BitVec.ofNat 8)
  | .word [] => none
  | .word (c :: cs) =>
    match digitsValue 10 decimalDigit 0 (c :: cs) with
    | some v => if v < 256 then some (BitVec.ofNat 8 v) else none
    | none => none

/-- All of them, or none. -/
def allSome {α : Type} : List (Option α) → Option (List α)
  | [] => some []
  | o :: os =>
    match o, allSome os with
    | some a, some as => some (a :: as)
    | _, _ => none

/-- The message of `UPDATE` and `HASH1` (R69): one quoted text, or bytes. -/
def tokenMessage : List Token → Option (List Byte)
  | [.text cs] => allSome (cs.map asciiByte)
  | ts => allSome (ts.map tokenByte)

/-- The commands of one line (R68, R69): an empty line has none, a macro has those of its expansion; `none` where the
line is not in the notation. Mnemonics are upper case. -/
def tokensCommands : List Token → Option (List Instr)
  | [] => some []
  | .word m :: ts =>
    if m = "INIT".toList then if ts = [] then some [.init] else none
    else if m = "FINAL".toList then if ts = [] then some [.final] else none
    else if m = "UPD".toList then
      match ts with
      | [t] => (tokenByte t).map fun b => [.upd b]
      | _ => none
    else if m = "UPDATE".toList then (tokenMessage ts).map updateMacro
    else if m = "HASH1".toList then (tokenMessage ts).map hash1Macro
    else none
  | _ :: _ => none

/-- The commands of one line of text. -/
def parseLine (cs : List Char) : Option (List Instr) :=
  match lexLine .gap cs with
  | some ts => tokensCommands ts
  | none => none

/-- A script: the list of its lines' commands in order (R68). -/
def parseScript (ls : List (List Char)) : Option (List Instr) :=
  (allSome (ls.map parseLine)).map List.flatten

end Sys2Proof.Machine
end

