-- ==== Sys2Proof/Machine/Boundary.lean ====
section
/-! DEFINITION. The host: the Boundary Service (spec 44_oneshot_hex_host.md section 4), host software outside the
hardware block, modelled as far as it drives the engine. The allocator and the copy collaborators are out of scope as
mechanisms (00_scope.md section 3); what they answer is an input of the call (R149). -/

namespace Sys2Proof.Machine

/-- The arguments of `computeDigestAcrossBoundary`, all from an untrusted caller (R145). -/
structure Request where
  sourcePointer : Nat
  sourceLength : Int
  destinationPointer : Nat
  deriving DecidableEq, Repr

/-- What the collaborators answer during one call (R147, R149): whether each acquisition and each copy succeeds, and the
bytes of the caller's memory as the copy-in finds them. -/
structure Collaborators where
  acquireInput : Bool
  acquireOutput : Bool
  copyFromCaller : Nat → Nat → Bool
  copyToCaller : Nat → List Byte → Bool
  callerByte : Nat → Byte

/-- Whether the copy-in of a request succeeds (R148). -/
def Collaborators.copiesIn (c : Collaborators) (req : Request) : Bool :=
  c.copyFromCaller req.sourcePointer req.sourceLength.toNat

/-- Exactly `sourceLength` bytes of the caller's memory, from `sourcePointer` on (R148). -/
def Collaborators.source (c : Collaborators) (req : Request) : List Byte :=
  (List.range req.sourceLength.toNat).map fun i => c.callerByte (req.sourcePointer + i)

/-- Validation (R146): whether `sourceLength` is in `[1, MAX_INPUT_SIZE]`. -/
def Request.inRange (req : Request) (p : HostParams) : Bool :=
  decide (1 ≤ req.sourceLength ∧ req.sourceLength ≤ p.maxInputSize)

/-- The two scratch buffers of a request (R147). -/
inductive Scratch where
  | input
  | output
  deriving DecidableEq, Repr

/-- What a call does that its surroundings can see, in order. -/
inductive HostEvent where
  | acquired (b : Scratch)
  | released (b : Scratch)
  /-- The digest copied to the caller's destination (R151). -/
  | copiedOut (destination : Nat) (bytes : List Byte)
  deriving DecidableEq, Repr

/-- How a call ends: its integer status (R153), the engine after it, and the events. -/
structure Served where
  status : Int
  engine : State
  events : List HostEvent
  deriving DecidableEq, Repr

/-- The release of both buffers (R152). -/
def releaseBoth : List HostEvent := [.released .input, .released .output]

/-- The acquisition of both buffers (R147). -/
def acquireBoth : List HostEvent := [.acquired .input, .acquired .output]

/-- A zero-filled scratch buffer (R147). -/
def zeroBuffer (p : HostParams) : List Byte := List.replicate p.scratchSize 0x00

/-- A buffer with `bs` copied to its front (R148). -/
def overwriteFront (buf bs : List Byte) : List Byte := (bs ++ buf.drop bs.length).take buf.length

/-- The 32 bytes `DG[0..31]` a host takes from the digest port (R52, R150); `none` where that read gives no value. -/
def readDigestBytes (s : State) : Option (List Byte) :=
  match s.readDigest with
  | .next v => some (bigEndian 32 v)
  | _ => none

/-- The start-up self-test, run by the host (R140, R188): `HASH1 "hello world"`, a read of `DG`, the rendering `hex(DG)`,
and the comparison with the expected text. -/
def selfTestPasses (s : State) : Bool :=
  match hash1 selfTestMessage s with
  | .next t => (readDigestBytes t).map hexText == some selfTestText
  | _ => false

/-- Steps 4 to 6, with both buffers held and the input staged (R150, R151, R152, R156). -/
def serveStaged (p : HostParams) (c : Collaborators) (req : Request) (input : List Byte) (s : State) :
    Host.Outcome Served Fault Refusal :=
  match hash1 (input.take req.sourceLength.toNat) s with
  | .fault f => .fault f
  | .refused f => .refused f
  | .next t =>
    match readDigestBytes t with
    | none => .next ⟨p.engineFault, t, acquireBoth ++ releaseBoth⟩
    | some dg =>
      let output := overwriteFront (zeroBuffer p) dg
      if c.copyToCaller req.destinationPointer (output.take 32) then
        .next ⟨0, t, acquireBoth ++ [.copiedOut req.destinationPointer (output.take 32)] ++ releaseBoth⟩
      else .next ⟨p.invalidDestination, t, acquireBoth ++ releaseBoth⟩

/-- `computeDigestAcrossBoundary` (R145): validation (R146, R154), acquisition (R147), copy-in of exactly `sourceLength` bytes
(R148), then steps 4 to 6. -/
def serve (p : HostParams) (c : Collaborators) (req : Request) (s : State) :
    Host.Outcome Served Fault Refusal :=
  if ¬ req.inRange p then .next ⟨p.invalidLength, s, []⟩
  else if ¬ c.acquireInput then .next ⟨p.resourceExhausted, s, []⟩
  else if ¬ c.acquireOutput then .next ⟨p.resourceExhausted, s, [.acquired .input, .released .input]⟩
  else if ¬ c.copiesIn req then .next ⟨p.invalidSource, s, acquireBoth ++ releaseBoth⟩
  else serveStaged p c req (overwriteFront (zeroBuffer p) (c.source req)) s

end Sys2Proof.Machine
end

