-- ==== Sys2Proof/Machine/Invocations.lean ====
section
/-! DEFINITION. Several invocations of the Boundary Service at once (R155, R189): each call in progress with scratch buffers of
its own, each on one of several engines, an engine taken for a whole `HASH1`. Any interleaving of the calls' steps; a call that
blocks in an acquisition is one that takes no step for a while. -/

namespace Sys2Proof.Machine

/-- Where a call stands in the six steps of R145. -/
inductive CallStage where
  /-- Step 1, validation (R146). -/
  | validate
  /-- Step 2, the first buffer (R147). -/
  | acquireInput
  /-- Step 2, the second buffer (R147). -/
  | acquireOutput
  /-- Step 3 (R148). -/
  | copyIn
  /-- Before step 4: the call's turn on its engine has not come (R155). -/
  | awaitEngine
  /-- Step 4 (R150): the engine is this call's; the commands it has yet to issue, then the read of `DG`. -/
  | hashing (rest : List Instr)
  /-- Step 5 (R151). -/
  | copyOut
  /-- Step 6 (R152), with the status to return. -/
  | release (status : Int)
  /-- Returned (R153). -/
  | done (status : Int)
  deriving DecidableEq, Repr

/-- One invocation: what it was called with, the engine it uses, where it stands, the scratch buffers it holds, and what it
has done that its surroundings can see. -/
structure Call where
  collaborators : Collaborators
  request : Request
  /-- The number of the engine it uses. -/
  engine : Nat
  stage : CallStage
  input : Option (List Byte)
  output : Option (List Byte)
  events : List HostEvent

/-- A call just made: nothing held, nothing done (R145). -/
def Call.start (c : Collaborators) (req : Request) (engine : Nat) : Call where
  collaborators := c
  request := req
  engine := engine
  stage := .validate
  input := none
  output := none
  events := []

/-- Whether a call has an engine to itself: from its first command to its read of `DG` (R189). -/
def Call.holdsEngine (c : Call) : Bool :=
  match c.stage with
  | .hashing _ => true
  | _ => false

/-- The release of the buffers a call still holds (R152). -/
def Call.releases (c : Call) : List HostEvent :=
  (if c.input.isSome then [.released .input] else []) ++ (if c.output.isSome then [.released .output] else [])

/-- The next command of step 4, or, after the last one, the read of `DG` into the output buffer (R150); where the engine shows no
digest the call fails (R156). A call whose engine stops stays as it is (assumption log 10). -/
def Call.hashStep (p : HostParams) (c : Call) (e : State) : List Instr → Call × State
  | i :: rest =>
    match exec i e with
    | .next t => ({ c with stage := .hashing rest }, t)
    | _ => (c, e)
  | [] =>
    match readDigestBytes e with
    | some dg => ({ c with output := c.output.map (overwriteFront · dg), stage := .copyOut }, e)
    | none => ({ c with stage := .release p.engineFault }, e)

/-- One step of a call, on its engine `e`, which is `free` where no call holds it. -/
def Call.step (p : HostParams) (free : Bool) (c : Call) (e : State) : Call × State :=
  match c.stage with
  | .validate =>
    (if c.request.inRange p then { c with stage := .acquireInput } else { c with stage := .done p.invalidLength }, e)
  | .acquireInput =>
    (if c.collaborators.acquireInput then
      { c with input := some (zeroBuffer p), events := c.events ++ [.acquired .input], stage := .acquireOutput }
    else { c with stage := .release p.resourceExhausted }, e)
  | .acquireOutput =>
    (if c.collaborators.acquireOutput then
      { c with output := some (zeroBuffer p), events := c.events ++ [.acquired .output], stage := .copyIn }
    else { c with stage := .release p.resourceExhausted }, e)
  | .copyIn =>
    (if c.collaborators.copiesIn c.request then
      { c with input := c.input.map (overwriteFront · (c.collaborators.source c.request)), stage := .awaitEngine }
    else { c with stage := .release p.invalidSource }, e)
  | .awaitEngine =>
    (if free then
      { c with stage := .hashing (hash1Macro ((c.input.getD []).take c.request.sourceLength.toNat)) }
    else c, e)
  | .hashing rest => c.hashStep p e rest
  | .copyOut =>
    (if c.collaborators.copyToCaller c.request.destinationPointer ((c.output.getD []).take 32) then
      { c with
        events := c.events ++ [.copiedOut c.request.destinationPointer ((c.output.getD []).take 32)], stage := .release 0 }
    else { c with stage := .release p.invalidDestination }, e)
  | .release status =>
    ({ c with events := c.events ++ c.releases, input := none, output := none, stage := .done status }, e)
  | .done _ => (c, e)

/-- The calls in progress and the engines they use. -/
structure HostSystem where
  calls : List Call
  engines : List State

/-- Whether no call holds engine `n`. -/
def HostSystem.engineFree (sys : HostSystem) (n : Nat) : Bool :=
  sys.calls.all fun c => !(c.holdsEngine && c.engine == n)

/-- A step of call `k`; a call on an engine that is not there does not move. -/
def HostSystem.stepCall (p : HostParams) (k : Nat) (sys : HostSystem) : HostSystem :=
  match sys.calls[k]? with
  | none => sys
  | some c =>
    match sys.engines[c.engine]? with
    | none => sys
    | some e =>
      { calls := sys.calls.set k (c.step p (sys.engineFree c.engine) e).1,
        engines := sys.engines.set c.engine (c.step p (sys.engineFree c.engine) e).2 }

/-- An interleaving: the calls that step, in order. -/
def HostSystem.run (p : HostParams) : List Nat → HostSystem → HostSystem
  | [], sys => sys
  | k :: ks, sys => HostSystem.run p ks (sys.stepCall p k)

end Sys2Proof.Machine
end

