-- ==== Sys2Proof/Machine/Multi.lean ====
section
/-! DEFINITION. Several engine instances (R28, R171): the product of copies of the one-instance model, with any
interleaving of their steps. They share nothing. -/

namespace Sys2Proof.Machine

/-- One step of an engine, an engine whose step stops staying as it is. -/
def stepOrStay (s : State) : State :=
  match step s with
  | .next t => t
  | .fault _ => s
  | .refused _ => s

/-- A step of instance `i` of a system of instances; the others do not move. -/
def stepInstance (i : Nat) (sys : List State) : List State := sys.modify i stepOrStay

/-- An interleaving: the instances that step, in order. -/
def runSchedule : List Nat → List State → List State
  | [], sys => sys
  | i :: is, sys => runSchedule is (stepInstance i sys)

/-- `n` steps of one instance alone. -/
def stepsAlone : Nat → State → State
  | 0, s => s
  | n + 1, s => stepsAlone n (stepOrStay s)

end Sys2Proof.Machine
end

