-- ==== Sys2Proof/Safety.lean ====
section
/-! DEFINITION. What counts as a safe state and a successful run, in the terms the statements use. -/

namespace Sys2Proof.Safety

open Sys2Proof.Machine

/-- Whether a message is in progress: `PHASE` is `Initialized` or `Absorbing` (R17, R19). -/
abbrev inMessage (s : State) : Prop := s.phase = .initialized ∨ s.phase = .absorbing

/-- The machine's invariant between commands: what R13, R14, R17 (a), R18, R22, R102 and R160 to R163 say of every
reachable state. (The bounds on `PL` and `TBL` of R13 and R17 (b) follow from the widths and from R17 (a).) -/
structure Inv (s : State) : Prop where
  /-- `BLK` is in canonical form (R40). -/
  blkWf : Memory.wf 64 s.pb
  /-- `DG` is in canonical form (R40). -/
  dgWf : Memory.wf 32 s.dg
  /-- Before `INIT` no byte of `PB` holds a value (R18). -/
  blkEmpty : s.phase = .uninitialized → s.pb = []
  /-- Exactly `PB[0]` to `PB[PL-1]` hold values (R14). -/
  blkHeld : inMessage s → s.pb.map Prod.fst = List.range s.pl.toNat
  /-- `TBL mod 512 = 0` (R17 (a)). -/
  tblWhole : inMessage s → s.tbl.toNat % 512 = 0
  /-- After `INIT` and before the first byte (R80, R18). -/
  fresh : s.phase = .initialized → s.h = initialHash ∧ s.pl = 0 ∧ s.tbl = 0
  /-- After `FINAL`: `PB` is drained, `PL = 0`, and `DG` is `H` big-endian (R102). -/
  drained : s.phase = .finalized → s.pb = [] ∧ s.pl = 0 ∧ s.dg = emitDigest s.h
  /-- `DG` holds a value only after `FINAL` (R22). -/
  noDigest : s.phase ≠ .finalized → s.dg = []
  /-- `PHASE` still shows the phase in which the bad command arrived (R160, R161). -/
  misusePhase : s.fault = .invalidStateError → s.phase = .uninitialized ∨ s.phase = .finalized
  /-- `PL` and `TBL` still show the overflow (R160, R162). -/
  overflowAt : s.fault = .lengthOverflow → s.phase = .absorbing ∧ s.pl = 63 ∧ s.tbl = tblCeiling

/-- A state in which a message computation has succeeded (R169). -/
def Succeeded (s : State) : Prop := s.phase = .finalized ∧ s.fault = .none

/-- Two states that no later digest can tell apart (R104): equal but for bytes of `PB` at index `PL` and above. -/
def SameMessage (s t : State) : Prop :=
  s.h = t.h ∧ s.pl = t.pl ∧ s.tbl = t.tbl ∧ s.phase = t.phase ∧ s.fault = t.fault ∧ s.freeIx = t.freeIx ∧
    ∀ a < s.pl.toNat, s.pb.read a = t.pb.read a

end Sys2Proof.Safety
end

