-- ==== Sys2Proof/Certificates/Slice0/Obligations.lean ====
section
/-! DEFINITION. The statements for the provers, from the numbered rules of spec/, family by family. `exec` is the
spec's `exec(s, c)`; `acceptWord` is a command word accepted at the command port. -/

open Sys2Proof Sys2Proof.Machine Sys2Proof.Safety

/-! ### Encoding (30_encoding.md) -/

/-- R62, R64, R71: the words of the three commands, and those words written out bit by bit from R60 and R61 decode to the
commands. -/
def Obligations.WordsOfTheCommands : Prop :=
  encode .init = 0b0000000100000000 ∧ (∀ b : Byte, encode (.upd b) = 0x0200 + b.setWidth 16) ∧
    encode .final = 0b0000001100000000 ∧
    decode 0b0000000100000000 = .instr .init ∧ decode 0b0000001001100001 = .instr (.upd 0x61) ∧
    decode 0b0000001000000000 = .instr (.upd 0x00) ∧ decode 0b0000001011111111 = .instr (.upd 0xFF) ∧
    decode 0b0000001100000000 = .instr .final

/-- 30_encoding.md section 4: decode and encode as R70 writes them, and the two round trips, which the spec marks as its own
inference ("derived: from rule R61"): no bit of a word is dropped. -/
def Obligations.DecodeAndEncodeAgree : Prop :=
  (∀ w : CmdWord, (decode w).instr? =
    if w = 0x0100 then some .init
    else if w.extractLsb' 8 8 = 0x02 then some (.upd (w.extractLsb' 0 8))
    else if w = 0x0300 then some .final else none) ∧
  encode .init = 0x0100 ∧ (∀ b : Byte, encode (.upd b) = 0x0200 ||| b.setWidth 16) ∧ encode .final = 0x0300 ∧
  (∀ i : Instr, decode (encode i) = .instr i) ∧
  (∀ (w : CmdWord) (i : Instr), decode w = .instr i → encode i = w)

/-- R61: a word selects the row for which `cmd & mask = match`, the three rows are disjoint, and no word is a `compress`: what
a word decodes to is one of the three rows' commands. -/
def Obligations.DecodeFollowsTheOpcodeMap : Prop :=
  ∀ w : CmdWord,
    (decode w = .instr .init ↔ w &&& 0xFFFF = 0x0100) ∧
    (∀ b : Byte, decode w = .instr (.upd b) ↔ w &&& 0xFF00 = 0x0200 ∧ b = w.extractLsb' 0 8) ∧
    (decode w = .instr .final ↔ w &&& 0xFFFF = 0x0300) ∧
    ¬ (w &&& 0xFFFF = 0x0100 ∧ w &&& 0xFF00 = 0x0200) ∧
    ¬ (w &&& 0xFFFF = 0x0100 ∧ w &&& 0xFFFF = 0x0300) ∧
    ¬ (w &&& 0xFF00 = 0x0200 ∧ w &&& 0xFFFF = 0x0300) ∧
    (∀ i : Instr, decode w = .instr i → i = .init ∨ (∃ b, i = .upd b) ∨ i = .final)

/-- R65: which words are illegal, that there are 65278 of them, that `0x0000` is one, and what one does when it is accepted
while `FAULT = None`. -/
def Obligations.IllegalWordsRaiseIllegalCommand : Prop :=
  (∀ w : CmdWord, (decode w).instr? = none ↔
    (w.extractLsb' 8 8 = 0x00#8 ∨ 0x04#8 ≤ w.extractLsb' 8 8 ∨
      ((w.extractLsb' 8 8 = 0x01#8 ∨ w.extractLsb' 8 8 = 0x03#8) ∧ w.extractLsb' 0 8 ≠ 0x00#8))) ∧
  ((List.range 65536).filter fun n => ((decode (BitVec.ofNat 16 n)).instr?).isNone).length = 65278 ∧
  (decode 0x0000).instr? = none ∧
  (∀ (w : CmdWord) (s : State), (decode w).instr? = none → s.fault = .none →
    acceptWord w s = .next { s with fault := .illegalCommand })

/-! ### The step and the input ports (00_scope.md R3, 10_state.md R29) -/

/-- A step runs the decoded command: an accepted word that decodes to `i` is `exec i` on the state with that sample
taken. -/
def Obligations.StepRunsTheDecodedCommand : Prop :=
  ∀ (s : State) (p : Pins) (rest : List Pins) (i : Instr),
    s.pins = p :: rest → p.rst = false → p.cmdValid = true → decode p.cmd = .instr i →
      step s = exec i { s with pins := rest }

/-- 00_scope.md section 4 (R3): the engine takes no step of its own. Without a sample, or with one that carries neither `rst` nor `cmd_valid`, the
architectural state does not move; an illegal word does what `illegalCommand` says. (That the host's samples are a list
in the state is the model's choice, assumption log 4.) -/
def Obligations.StepWithoutACommandChangesNothing : Prop :=
  (∀ s : State, s.pins = [] → step s = .next s) ∧
  (∀ (s : State) (p : Pins) (rest : List Pins), s.pins = p :: rest → p.rst = false → p.cmdValid = false →
    step s = .next { s with pins := rest }) ∧
  (∀ (s : State) (p : Pins) (rest : List Pins) (why : IllegalWord), s.pins = p :: rest → p.rst = false →
    p.cmdValid = true → decode p.cmd = .illegal why → step s = illegalCommand { s with pins := rest })

/-- 70_reset_and_hazards.md section 1 (R27, R185): what a step with `rst` asserted leaves, whatever command is offered with it and whatever the state was. Of
`H`, `PL` and `TBL`, which hold no value, it says nothing (assumption log 1). -/
def Obligations.ResetStepLeavesUninitialized : Prop :=
  ∀ (s : State) (p : Pins) (rest : List Pins), s.pins = p :: rest → p.rst = true →
    ∃ t, step s = .next t ∧ t.phase = .uninitialized ∧ t.fault = .none ∧ t.pb = [] ∧ t.dg = [] ∧
      t.status = 0x00 ∧ t.digestValid = false ∧ t.pins = rest

/-- 10_state.md section 10 (R27): the reset state's values where the spec gives them; a read of the digest port gives no value. -/
def Obligations.ResetStateValues : Prop :=
  State.reset.phase = .uninitialized ∧ State.reset.fault = .none ∧ State.reset.pb = [] ∧ State.reset.dg = [] ∧
    State.reset.status = 0x00 ∧ State.reset.digestValid = false ∧ State.reset.readDigest = .fault .digestNotValid

/-- 70_reset_and_hazards.md section 1 (R186): no outcome depends on what `H`, `PB`, `PL` and `TBL` hold in `Uninitialized`. Two states that differ in nothing
else answer every word with the same status and digest register, and are equal as soon as the phase is left. -/
def Obligations.ResetContentsAreNotObservable : Prop :=
  ∀ (s t : State) (w : CmdWord), s.phase = .uninitialized → t.phase = .uninitialized → s.fault = t.fault →
    s.dg = t.dg → s.pins = t.pins → s.freeIx = t.freeIx →
    ∃ s' t', acceptWord w s = .next s' ∧ acceptWord w t = .next t' ∧ s'.status = t'.status ∧ s'.dg = t'.dg ∧
      (s'.phase ≠ .uninitialized → s' = t')

/-! ### INIT (40_init.md) -/

/-- 40_init.md: what `INIT` does from every state with `FAULT = None`, in any phase; that it discards nothing else; that a second
`INIT` changes nothing; and that it does not clear `FAULT`. -/
def Obligations.InitStartsAMessage : Prop :=
  (∀ s : State, s.fault = .none →
    ∃ t, exec .init s = .next t ∧ t.h = initialHash ∧ t.pl = 0 ∧ t.tbl = 0 ∧ t.phase = .initialized ∧
      (∀ a, t.dg.read a = none) ∧ t.digestValid = false ∧ (∀ a, t.pb.read a = none) ∧ t.fault = .none ∧
      t.status = 0x01 ∧ exec .init t = .next t) ∧
  (∀ s : State, s.fault ≠ .none → exec .init s = .next s)

/-- 40_init.md, the table of `IV`, which the spec supplies from general knowledge (93_implementation_defined.md G1; log 11),
and its check `IV[i] = floor(sqrt(p_i) * 2^32) mod 2^32`: `r` is the integer square root of
`p_i * 2^64`. -/
def Obligations.InitialHashValues : Prop :=
  initialHash = #v[0x6a09e667, 0xbb67ae85, 0x3c6ef372, 0xa54ff53a, 0x510e527f, 0x9b05688c, 0x1f83d9ab, 0x5be0cd19] ∧
  ∀ i : Fin 8, ∃ r : Nat, r ^ 2 ≤ [2, 3, 5, 7, 11, 13, 17, 19].getD i.val 0 * 2 ^ 64 ∧
    [2, 3, 5, 7, 11, 13, 17, 19].getD i.val 0 * 2 ^ 64 < (r + 1) ^ 2 ∧ initialHash[i].toNat = r % 2 ^ 32

/-- The frame of `INIT` (R80, R11, R14, R22): of a state whose `FAULT` is `None` it leaves `FAULT`, the host's samples and
the free-value counter alone; it stores no byte, and no byte of `PB` or `DG` holds a value after it. Of a faulted state
it leaves everything alone. -/
def Obligations.InitFrame : Prop :=
  ∀ s t : State, exec .init s = .next t →
    t.fault = s.fault ∧ t.pins = s.pins ∧ t.freeIx = s.freeIx ∧
    (s.fault = .none → (∀ a, t.pb.read a = none) ∧ (∀ a, t.dg.read a = none)) ∧ (s.fault ≠ .none → t = s)

/-! ### UPD (41_update.md) -/

/-- 41_update.md: a `UPD b` that raises no fault and completes no block stores `b` at index `PL`, after every byte absorbed earlier;
`PL` advances and `PHASE` becomes `Absorbing`. -/
def Obligations.UpdAppendsAByte : Prop :=
  ∀ (b : Byte) (s : State), s.fault = .none → inMessage s → s.pl < 63 →
    ∃ t, exec (.upd b) s = .next t ∧ t.pb.read s.pl.toNat = some b ∧
      (∀ a, a ≠ s.pl.toNat → t.pb.read a = s.pb.read a) ∧ t.pl = s.pl + 1 ∧ t.phase = .absorbing ∧
      t.h = s.h ∧ t.tbl = s.tbl ∧ t.fault = .none ∧ t.dg = s.dg

/-- 41_update.md, block completion: the 64th byte runs `compress` once over the 63 bytes held and this one, advances `TBL` by exactly 512 and sets
`PL <- 0`. The premise on `PB` holds in every state with `Inv`. -/
def Obligations.UpdCompletesABlock : Prop :=
  ∀ (b : Byte) (s : State), s.fault = .none → inMessage s → s.pl = 63 → s.tbl.toNat % 512 = 0 → s.tbl ≠ tblCeiling →
    (∀ a < 63, s.pb.read a ≠ none) →
    ∃ (blk : Block) (t : State), (∀ i : Fin 64, i.val < 63 → s.pb.read i.val = some blk[i]) ∧ blk[63] = b ∧
      exec (.upd b) s = .next t ∧ t.h = compress s.h blk ∧ t.tbl.toNat = s.tbl.toNat + 512 ∧ t.pl = 0 ∧
      (∀ a, t.pb.read a = none) ∧ t.phase = .absorbing ∧ t.fault = .none ∧ t.dg = s.dg

/-- R162: `LengthOverflow` is raised by a `UPD` that would complete a block with `TBL = 2^64 − 512`, by no other
command and nowhere else, and it changes nothing but `FAULT`. -/
def Obligations.UpdOverflow : Prop :=
  tblCeiling.toNat = 2 ^ 64 - 512 ∧
  (∀ (b : Byte) (s : State), s.fault = .none → inMessage s → s.pl = 63 → s.tbl = tblCeiling →
    exec (.upd b) s = .next { s with fault := .lengthOverflow }) ∧
  (∀ (i : Instr) (s t : State), s.fault = .none → exec i s = .next t → t.fault = .lengthOverflow →
    (∃ b, i = .upd b) ∧ inMessage s ∧ s.pl = 63 ∧ s.tbl = tblCeiling)

/-- R89: the phase check of `UPD`, and the phase a non-faulting `UPD` sets. -/
def Obligations.UpdPhaseCheck : Prop :=
  (∀ (b : Byte) (s : State), s.fault = .none → s.phase = .uninitialized ∨ s.phase = .finalized →
    exec (.upd b) s = .next { s with fault := .invalidStateError }) ∧
  (∀ (b : Byte) (s t : State), inMessage s → exec (.upd b) s = .next t → t.fault = .none → t.phase = .absorbing)

/-- R16: `TBL` is its two halves, the addition of a completed block carries from `TBL_LO` into `TBL_HI`, and the overflow
check looks at both. -/
def Obligations.TotalLengthCarriesBetweenHalves : Prop :=
  (∀ s : State, s.tbl = s.tblHi ++ s.tblLo) ∧
  (∀ (b : Byte) (s t : State), s.fault = .none → inMessage s → s.pl = 63 → exec (.upd b) s = .next t → t.fault = .none →
    t.tblLo = s.tblLo + 512 ∧ t.tblHi = s.tblHi + (if 2 ^ 32 ≤ s.tblLo.toNat + 512 then 1 else 0)) ∧
  (∀ (b : Byte) (s t : State), s.fault = .none → exec (.upd b) s = .next t → t.fault = .lengthOverflow →
    s.tblHi = 0xffffffff ∧ s.tblLo = 0xfffffe00)

/-- The frame of `UPD` (R85, R14): `DG`, the samples and the counter never change; a faulted state does not change at all;
a `UPD` that raises a fault changes `FAULT` only; one that completes no block stores at index `PL` and nowhere else and
leaves `H` and `TBL` alone; one that completes a block leaves `FAULT` alone, and no byte of `PB` holds a value
after it. -/
def Obligations.UpdFrame : Prop :=
  ∀ (b : Byte) (s t : State), exec (.upd b) s = .next t →
    t.dg = s.dg ∧ t.pins = s.pins ∧ t.freeIx = s.freeIx ∧
    (s.fault ≠ .none → t = s) ∧
    (t.fault ≠ .none → t = { s with fault := t.fault }) ∧
    (t.fault = .none → s.pl < 63 →
      (∀ a, a ≠ s.fillIndex → t.pb.read a = s.pb.read a) ∧ t.h = s.h ∧ t.tbl = s.tbl) ∧
    (t.fault = .none → s.pl = 63 → ∀ a, t.pb.read a = none)

/-! ### FINAL (42_finalize.md) -/

/-- 42_finalize.md, the encoded length `L = TBL + 8 * PL` (R96, which the spec marks as its own inference): the sum does not
wrap where `TBL ≤ 2^64 − 512`. -/
def Obligations.EncodedLengthDoesNotWrap : Prop :=
  ∀ s : State, s.tbl.toNat ≤ 2 ^ 64 - 512 → s.encodedLength.toNat = s.tbl.toNat + 8 * s.pl.toNat

/-- 20_memory.md section 2: the length field is big-endian at indices 56 to 63 (R42), and, by the inference the spec marks
there ("derived: from rule R41"), it is read back as the block's last two words. -/
def Obligations.LengthFieldIsBigEndian : Prop :=
  ∀ (m : Memory) (len : DWord),
    (∀ j < 8, (m.writeBE 56 8 len).read (56 + j) = some (len.extractLsb' (56 - 8 * j) 8)) ∧
    (∀ a, a < 56 ∨ 64 ≤ a → (m.writeBE 56 8 len).read a = m.read a) ∧
    (∀ blk : Block, (m.writeBE 56 8 len).block? = some blk →
      (schedule blk)[14]? = some (len.extractLsb' 32 32) ∧ (schedule blk)[15]? = some (len.extractLsb' 0 32))

/-- 42_finalize.md where `PL ≤ 55` (R97, R99, R100, with the length of R96, the spec's own inference): the one block `FINAL` compresses is the message bytes, `0x80` at index `PL`, zeros up
to index 55 and the length big-endian; and the state after it. The premise on `PB` holds in every state with `Inv`. -/
def Obligations.FinalWithOneBlock : Prop :=
  ∀ s : State, s.fault = .none → inMessage s → s.pl.toNat ≤ 55 → (∀ a < s.pl.toNat, s.pb.read a ≠ none) →
    ∃ (blk : Block) (t : State),
      (∀ i : Fin 64,
        (i.val < s.pl.toNat → s.pb.read i.val = some blk[i]) ∧ (i.val = s.pl.toNat → blk[i] = 0x80) ∧
        (s.pl.toNat < i.val → i.val < 56 → blk[i] = 0x00) ∧
        (56 ≤ i.val → blk[i] = s.encodedLength.extractLsb' (8 * (63 - i.val)) 8)) ∧
      exec .final s = .next t ∧ t.h = compress s.h blk ∧ t.phase = .finalized ∧ t.pl = 0 ∧ t.fault = .none ∧
      t.digestValid = true

/-- 42_finalize.md where `PL ≥ 56` (R98, R99, R100, with the length of R96, the spec's own inference): the rest of the block is zeros and is compressed, and a fresh block of 56 zeros and the
length is compressed after it. The premise on `PB` holds in every state with `Inv`. -/
def Obligations.FinalWithTwoBlocks : Prop :=
  ∀ s : State, s.fault = .none → inMessage s → 56 ≤ s.pl.toNat → (∀ a < s.pl.toNat, s.pb.read a ≠ none) →
    ∃ (blk fresh : Block) (t : State),
      (∀ i : Fin 64,
        (i.val < s.pl.toNat → s.pb.read i.val = some blk[i]) ∧ (i.val = s.pl.toNat → blk[i] = 0x80) ∧
        (s.pl.toNat < i.val → blk[i] = 0x00)) ∧
      (∀ i : Fin 64, (i.val < 56 → fresh[i] = 0x00) ∧
        (56 ≤ i.val → fresh[i] = s.encodedLength.extractLsb' (8 * (63 - i.val)) 8)) ∧
      exec .final s = .next t ∧ t.h = compress (compress s.h blk) fresh ∧ t.phase = .finalized ∧ t.pl = 0 ∧
      t.fault = .none ∧ t.digestValid = true

/-- R43: after a `FINAL` that raises no fault, `DG` holds all 32 bytes of the new `H`, each word big-endian, and
nothing else. -/
def Obligations.FinalEmitsTheDigest : Prop :=
  ∀ s t : State, s.fault = .none → exec .final s = .next t → t.fault = .none →
    (∀ (i : Fin 8) (j : Nat), j < 4 → t.dg.read (4 * i.val + j) = some (t.h[i].extractLsb' (24 - 8 * j) 8)) ∧
    (∀ a, 32 ≤ a → t.dg.read a = none)

/-- 20_memory.md section 2: the digest port after such a `FINAL` (R52): byte 0 of `DG` in the most significant place, and so,
by the inference the spec marks there ("derived: from rule R43"), `digest[255:224] = H[0]` and `digest[31:0] = H[7]`. -/
def Obligations.DigestPortAfterFinal : Prop :=
  ∀ s t : State, s.fault = .none → exec .final s = .next t → t.fault = .none →
    ∃ v : BitVec 256, t.readDigest = .next v ∧
      (∀ i < 32, t.dg.read i = some (v.extractLsb' (248 - 8 * i) 8)) ∧
      (∀ i : Fin 8, v.extractLsb' (224 - 32 * i.val) 32 = t.h[i])

/-- R103: the phase check of `FINAL`; a second `FINAL` changes neither `DG` nor `H`, and `digest_valid` drops to 0; `FINAL` is
legal from `Initialized` and from `Absorbing`. -/
def Obligations.FinalPhaseCheck : Prop :=
  (∀ s : State, s.fault = .none → s.phase = .uninitialized ∨ s.phase = .finalized →
    exec .final s = .next { s with fault := .invalidStateError }) ∧
  (∀ s : State, s.fault = .none → s.phase = .finalized →
    ∃ t, exec .final s = .next t ∧ t.dg = s.dg ∧ t.h = s.h ∧ t.digestValid = false) ∧
  (∀ s t : State, s.fault = .none → inMessage s → exec .final s = .next t → t.fault = .none)

/-- 42_finalize.md and 70_reset_and_hazards.md section 3 (R102, R190): the state a `FINAL` that raises no fault leaves, and that every later `UPD` or `FINAL` faults until
`INIT`. Of `TBL`, which holds no value, it says nothing (assumption log 2). -/
def Obligations.StateAfterFinal : Prop :=
  ∀ s t : State, s.fault = .none → exec .final s = .next t → t.fault = .none →
    t.phase = .finalized ∧ t.digestValid = true ∧ t.pl = 0 ∧ (∀ a, t.pb.read a = none) ∧
    (∀ b : Byte, exec (.upd b) t = .next { t with fault := .invalidStateError }) ∧
    exec .final t = .next { t with fault := .invalidStateError } ∧
    (∃ u, exec .init t = .next u ∧ u.phase = .initialized ∧ u.fault = .none ∧ ∀ a, u.dg.read a = none)

/-- The frame of `FINAL` (R95, R163): the samples never change; a faulted state does not change at all; a `FINAL` that
raises a fault changes `FAULT` only, so no byte of `DG` is written; one that raises none leaves `FAULT` alone, and no
byte of `PB` holds a value after it. -/
def Obligations.FinalFrame : Prop :=
  ∀ s t : State, exec .final s = .next t →
    t.pins = s.pins ∧ (s.fault ≠ .none → t = s) ∧ (t.fault ≠ .none → t = { s with fault := t.fault }) ∧
    (t.fault = .none → t.fault = s.fault ∧ ∀ a, t.pb.read a = none)

/-- What R90 and R104 say, marked by the spec as its own inference: no command reads a byte of `PB` at an index `≥ PL` it has not written itself. From two states that differ
in such bytes only, every command ends in states that again differ in such bytes only, with the same digest. -/
def Obligations.StaleBytesAreNotRead : Prop :=
  ∀ (i : Instr) (s t s' : State), SameMessage s t → s.dg = t.dg → exec i s = .next s' →
    ∃ t', exec i t = .next t' ∧ SameMessage s' t' ∧ s'.dg = t'.dg

/-! ### compress (43_compress.md) -/

/-- 43_compress.md section 2, `ROTR` and `SHR`, whose formulas the spec supplies from general knowledge (G2; log 11): rotation
by bits and by the rule's formula, logical shift as division. -/
def Obligations.RotateAndShift : Prop :=
  ∀ (n : Nat) (x : Word), 1 ≤ n → n ≤ 31 →
    (∀ i < 32, (rotr n x).getLsbD i = x.getLsbD ((i + n) % 32)) ∧
    (rotr n x).toNat = (x.toNat / 2 ^ n) ||| ((x.toNat * 2 ^ (32 - n)) % 2 ^ 32) ∧
    (shr n x).toNat = x.toNat / 2 ^ n

/-- 43_compress.md section 2, the sigma functions, which the spec completes from general knowledge (G3, G4; log 11): bit `i` of each sigma function, from the rotate and shift amounts. -/
def Obligations.SigmaFunctionsByBits : Prop :=
  ∀ (x : Word) (i : Nat), i < 32 →
    (smallSigma0 x).getLsbD i =
      (x.getLsbD ((i + 7) % 32) ^^ x.getLsbD ((i + 18) % 32) ^^ x.getLsbD (i + 3)) ∧
    (smallSigma1 x).getLsbD i =
      (x.getLsbD ((i + 17) % 32) ^^ x.getLsbD ((i + 19) % 32) ^^ x.getLsbD (i + 10)) ∧
    (bigSigma0 x).getLsbD i =
      (x.getLsbD ((i + 2) % 32) ^^ x.getLsbD ((i + 13) % 32) ^^ x.getLsbD ((i + 22) % 32)) ∧
    (bigSigma1 x).getLsbD i =
      (x.getLsbD ((i + 6) % 32) ^^ x.getLsbD ((i + 11) % 32) ^^ x.getLsbD ((i + 25) % 32))

/-- 43_compress.md section 2, `Ch` and `Maj`, whose formulas the spec supplies from general knowledge (G5; log 11): each bit of
`Ch` is chosen by the bit of `x`, each bit of `Maj` is the one at least two inputs have; and
the two formulas. -/
def Obligations.ChooseAndMajority : Prop :=
  ∀ x y z : Word,
    ch x y z = ((x &&& y) ^^^ (~~~x &&& z)) ∧ maj x y z = ((x &&& y) ^^^ (x &&& z) ^^^ (y &&& z)) ∧
    ∀ i < 32,
      (ch x y z).getLsbD i = (if x.getLsbD i then y.getLsbD i else z.getLsbD i) ∧
      ((maj x y z).getLsbD i = true ↔
        2 ≤ (x.getLsbD i).toNat + (y.getLsbD i).toNat + (z.getLsbD i).toNat)

/-- 43_compress.md section 3, the table of `K`, which the spec supplies from general knowledge (G6; log 11): `K[t] = floor(cbrt(p_t) * 2^32) mod 2^32` with `p_t` the t-th prime: `r` is the integer cube root of
`p_t * 2^96`. -/
def Obligations.RoundConstantsFromPrimes : Prop :=
  ∃ primes : List Nat, primes.length = 64 ∧ primes.Pairwise (· < ·) ∧ (∀ p, p ∈ primes ↔ p ≤ 311 ∧ p.Prime) ∧
    roundConstants.length = 64 ∧
    ∀ (t p : Nat) (k : Word), primes[t]? = some p → roundConstants[t]? = some k →
      ∃ r : Nat, r ^ 3 ≤ p * 2 ^ 96 ∧ p * 2 ^ 96 < (r + 1) ^ 3 ∧ k.toNat = r % 2 ^ 32

/-- R41: `compress` reads the block as sixteen big-endian words. It is the rounds over the schedule of the block, and for each
`i` below 16 word `i` of that schedule is what `MemRead(BLK, 4*i, 4)` gives and has the value the rule writes out. -/
def Obligations.BlockWordsAreBigEndian : Prop :=
  ∀ (m : Memory) (blk : Block), m.block? = some blk →
    (∀ hin : Vector Word 8,
      compress hin blk = addBack hin (runRounds (roundConstants.zip (schedule blk)) (loadWorking hin))) ∧
    ∀ i : Fin 16, ∃ w : Word, (schedule blk)[i.val]? = some w ∧ m.readBE (4 * i.val) 4 = some w ∧
      w.toNat =
        blk[4 * i.val].toNat * 2 ^ 24 + blk[4 * i.val + 1].toNat * 2 ^ 16 + blk[4 * i.val + 2].toNat * 2 ^ 8
          + blk[4 * i.val + 3].toNat

/-- R123, R124: the first sixteen words of the schedule are the block's words, and every later one is the sum the rule
gives. -/
def Obligations.ScheduleRecurrence : Prop :=
  ∀ blk : Block, (schedule blk).length = 64 ∧ (∀ i : Fin 16, (schedule blk)[i.val]? = some (blockWord blk i)) ∧
    ∀ (t : Nat) (w2 w7 w15 w16 : Word), 16 ≤ t → t < 64 →
      (schedule blk)[t - 2]? = some w2 → (schedule blk)[t - 7]? = some w7 →
      (schedule blk)[t - 15]? = some w15 → (schedule blk)[t - 16]? = some w16 →
        (schedule blk)[t]? = some (smallSigma1 w2 + w7 + smallSigma0 w15 + w16)

/-- 43_compress.md section 4, whose round equations the spec supplies from general knowledge (G7; log 11): `compress` is the 64 rounds in order from the accumulator, and the add-back. `x t` is the working set
before round `t`. -/
def Obligations.CompressRunsSixtyFourRounds : Prop :=
  ∀ (hin : Vector Word 8) (blk : Block), ∃ x : Nat → Working,
    (x 0).a = hin[0] ∧ (x 0).b = hin[1] ∧ (x 0).c = hin[2] ∧ (x 0).d = hin[3] ∧
    (x 0).e = hin[4] ∧ (x 0).f = hin[5] ∧ (x 0).g = hin[6] ∧ (x 0).h = hin[7] ∧
    (∀ (t : Nat) (k w : Word), roundConstants[t]? = some k → (schedule blk)[t]? = some w →
      ∃ t1 t2 : Word,
        t1 = (x t).h + bigSigma1 (x t).e + ch (x t).e (x t).f (x t).g + k + w ∧
        t2 = bigSigma0 (x t).a + maj (x t).a (x t).b (x t).c ∧
        x (t + 1) = ⟨t1 + t2, (x t).a, (x t).b, (x t).c, (x t).d + t1, (x t).e, (x t).f, (x t).g⟩) ∧
    compress hin blk =
      #v[hin[0] + (x 64).a, hin[1] + (x 64).b, hin[2] + (x 64).c, hin[3] + (x 64).d,
         hin[4] + (x 64).e, hin[5] + (x 64).f, hin[6] + (x 64).g, hin[7] + (x 64).h]

/-- 10_state.md section 2 (R11): the accumulator is mutated by reset, by `INIT` and by `compress` only. A step that gives a next
state took no sample and left `H`, or took one with `rst`, or left `H`, or its sample carried an accepted word that is: `INIT`,
which loads `IV`; a `UPD b` of the 64th byte, which compresses the 63 bytes held and `b`; or `FINAL`, which compresses the blocks
of its padding in order. -/
def Obligations.AccumulatorChangesByCompressOnly : Prop :=
  ∀ s t : State, step s = .next t →
    (s.pins = [] ∧ t.h = s.h) ∨
    ∃ (p : Pins) (rest : List Pins), s.pins = p :: rest ∧
      (p.rst = true ∨ t.h = s.h ∨
        (p.rst = false ∧ p.cmdValid = true ∧ s.fault = .none ∧ t.fault = .none ∧
          ((decode p.cmd = .instr .init ∧ t.phase = .initialized ∧ t.h = initialHash) ∨
          (∃ (b : Byte) (blk : Block), decode p.cmd = .instr (.upd b) ∧ inMessage s ∧ s.pl = 63 ∧
            (s.pb.write s.fillIndex b).block? = some blk ∧ t.h = compress s.h blk) ∨
          (∃ blks : List Block, decode p.cmd = .instr .final ∧ inMessage s ∧ finalBlocks s = some blks ∧
            t.h = blks.foldl compress s.h))))

/-! ### Faults (60_exceptions.md) and the status bits (10_state.md) -/

/-- R163: fault entry is precise: whatever word is accepted, a fault that it raises is the only change, the status port shows
its code, and no later command has any effect. -/
def Obligations.FaultEntryChangesFaultOnly : Prop :=
  ∀ (w : CmdWord) (s t : State), s.fault = .none → acceptWord w s = .next t → t.fault ≠ .none →
    t = { s with fault := t.fault } ∧ t.status.extractLsb' 2 2 = t.fault.code ∧ t.digestValid = false ∧
    ∀ v : CmdWord, acceptWord v t = .next t

/-- R161, R164: exactly which accepted words raise which fault, in the order of the checks. `INIT` raises
none. -/
def Obligations.FaultCauses : Prop :=
  ∀ (w : CmdWord) (s t : State), s.fault = .none → acceptWord w s = .next t →
    (t.fault = .illegalCommand ↔ (decode w).instr? = none) ∧
    (t.fault = .invalidStateError ↔
      ((∃ b, decode w = .instr (.upd b)) ∨ decode w = .instr .final) ∧
        (s.phase = .uninitialized ∨ s.phase = .finalized)) ∧
    (t.fault = .lengthOverflow ↔
      (∃ b, decode w = .instr (.upd b)) ∧ inMessage s ∧ s.pl = 63 ∧ s.tbl.toNat = 2 ^ 64 - 512)

/-- R167: after a fault every accepted word, legal or illegal, is discarded. -/
def Obligations.CommandsAfterAFaultAreDiscarded : Prop :=
  ∀ (w : CmdWord) (s : State), s.fault ≠ .none → acceptWord w s = .next s

/-- R166: a fault keeps its value over every step but one with `rst` asserted, which clears it. -/
def Obligations.OnlyResetClearsAFault : Prop :=
  ∀ s t : State, s.fault ≠ .none → step s = .next t →
    ((∀ p rest, s.pins = p :: rest → p.rst = false) → t = { s with pins := s.pins.tail }) ∧
    (∀ p rest, s.pins = p :: rest → p.rst = true → t.fault = .none)

/-- 10_state.md section 5: the table of phase transitions of R19, while `FAULT = None`; from `Initialized` the overflow is never reached in a state
with `Inv`. -/
def Obligations.PhaseTransitionTable : Prop :=
  ∀ s t : State, s.fault = .none →
    (exec .init s = .next t → t.phase = .initialized ∧ t.fault = .none) ∧
    (∀ b : Byte, exec (.upd b) s = .next t → inMessage s →
      (t.phase = .absorbing ∧ t.fault = .none) ∨ (t.phase = s.phase ∧ t.fault = .lengthOverflow)) ∧
    (∀ b : Byte, exec (.upd b) s = .next t → s.phase = .uninitialized ∨ s.phase = .finalized →
      t.phase = s.phase ∧ t.fault = .invalidStateError) ∧
    (exec .final s = .next t → inMessage s → t.phase = .finalized ∧ t.fault = .none) ∧
    (exec .final s = .next t → s.phase = .uninitialized ∨ s.phase = .finalized →
      t.phase = s.phase ∧ t.fault = .invalidStateError) ∧
    (∀ b : Byte, exec (.upd b) s = .next t → Inv s → s.phase = .initialized → t.fault = .none)

/-- What R19 says last, marked by the spec as its own inference: `Initialized` and `Absorbing` differ in nothing a command can
see. In a state with `Inv` every command ends alike from both. -/
def Obligations.InitializedAndAbsorbingActAlike : Prop :=
  ∀ (i : Instr) (s : State), Inv s → s.fault = .none → s.phase = .initialized →
    exec i s = exec i { s with phase := .absorbing }

/-- R21, with R18 and R20: the codes of `PHASE` and `FAULT` and the layout of the status port. -/
def Obligations.StatusPortLayout : Prop :=
  (∀ s : State, s.status.extractLsb' 0 2 = s.phase.code ∧ s.status.extractLsb' 2 2 = s.fault.code ∧
    s.status.extractLsb' 4 4 = 0) ∧
  Phase.uninitialized.code = 0 ∧ Phase.initialized.code = 1 ∧ Phase.absorbing.code = 2 ∧ Phase.finalized.code = 3 ∧
  FaultCode.none.code = 0 ∧ FaultCode.invalidStateError.code = 1 ∧ FaultCode.lengthOverflow.code = 2 ∧
  FaultCode.illegalCommand.code = 3

/-- 10_state.md section 7 and 60_exceptions.md section 2 (R22, R169): success is `digest_valid = 1`, and in a state with `Inv` the
digest port has a value then. That the read while `digest_valid = 0` ends in `Fault.digestNotValid` is the model's choice
(assumption log 6). -/
def Obligations.DigestValidIsSuccess : Prop :=
  ∀ s : State, (s.digestValid = true ↔ Succeeded s) ∧
    (s.digestValid = false → s.readDigest = .fault .digestNotValid) ∧
    (Inv s → s.digestValid = true → ∃ v, s.readDigest = .next v)

/-! ### The machine as a whole -/

/-- The reset state meets the invariant. -/
def Obligations.ResetMeetsTheInvariant : Prop := Inv State.reset

/-- What R13, R14, R17, R22, R102 and R160 say holds between commands (in part marked by the spec as its own inference): every
step keeps the invariant, whatever the host's samples are. -/
def Obligations.StepKeepsTheInvariant : Prop :=
  ∀ s t : State, Inv s → step s = .next t → Inv t

/-- What R45, R129 and R193 say (in part marked by the spec as its own inference): in a state with `Inv` every step ends in a next state: no command stops, none is refused. -/
def Obligations.StepAlwaysCompletes : Prop :=
  ∀ s : State, Inv s → ∃ t, step s = .next t

/-- What R17 (c), (d), (e) say, marked by the spec as its own inference: the state after `INIT` and any message the engine supports, from any state with `FAULT = None`: the
counters, the accumulator as the fold of `compress` over the whole blocks, and the pending bytes in order. -/
def Obligations.StateAfterAbsorbing : Prop :=
  ∀ (s : State) (m : List Byte), s.fault = .none → m.length < 2 ^ 61 →
    ∃ t, runScript (.init :: updateMacro m) s = .next t ∧ t.fault = .none ∧ inMessage t ∧
      8 * m.length = t.tbl.toNat + 8 * t.pl.toNat ∧ t.pl.toNat = m.length % 64 ∧
      t.tbl.toNat = 512 * (m.length / 64) ∧ t.h = chainValue m (m.length / 64) ∧
      ∀ j < m.length % 64, t.pb.read j = m[64 * (m.length / 64) + j]?

/-- What R136 and R138 say, marked by the spec as its own inference: from any state with `FAULT = None`, for any message of at most `2^61 − 1` bytes, `HASH1` ends in
`Finalized` with `FAULT = None`, and the digest port shows the digest of the message as the one function of R138. -/
def Obligations.HashOneShotComputesTheDigest : Prop :=
  ∀ (s : State) (m : List Byte), s.fault = .none → m.length < 2 ^ 61 →
    ∃ t, hash1 m s = .next t ∧ t.phase = .finalized ∧ t.fault = .none ∧ readDigestBytes t = some (sha256 m) ∧
      ∀ i < 32, t.dg.read i = (sha256 m)[i]?

/-- R192: the byte after the `2^61 − 1` bytes of the largest message raises `LengthOverflow`. -/
def Obligations.LengthCeiling : Prop :=
  ∀ (s : State) (m : List Byte) (b : Byte), s.fault = .none → m.length = 2 ^ 61 - 1 →
    ∃ t, runScript (.init :: updateMacro m) s = .next t ∧ t.fault = .none ∧
      exec (.upd b) t = .next { t with fault := .lengthOverflow }

/-- 44_oneshot_hex_host.md section 1 (R137, marked by the spec as its own inference): chunking invariance, for two chunks and for every splitting, empty chunks included. -/
def Obligations.ChunkingInvariance : Prop :=
  (∀ (m1 m2 : List Byte) (s : State), andThen (update m1 s) (update m2) = update (m1 ++ m2) s) ∧
  (∀ (chunks : List (List Byte)) (s : State),
    andThen (exec .init s) (fun s =>
      andThen (chunks.foldl (fun r m => andThen r (update m)) (.next s)) (exec .final)) =
    hash1 chunks.flatten s)

/-- R135: `update` as the fold of `exec`; the empty sequence leaves the state; once a `UPD` faults the rest are
discarded. -/
def Obligations.UpdateIsTheSequenceOfUpd : Prop :=
  (∀ s : State, update [] s = .next s) ∧
  (∀ (m : List Byte) (s : State),
    update m s = m.foldl (fun r b => andThen r (exec (.upd b))) (.next s)) ∧
  (∀ (m : List Byte) (s : State), s.fault ≠ .none → update m s = .next s)

/-- 20_memory.md section 5 (R49) and 30_encoding.md section 5 (R68), with the host's samples as the model holds them
(assumption log 4): the host that offers a script's words one after another makes the steps run its commands in order, each seeing
the complete effect of the earlier ones. -/
def Obligations.OfferedScriptIsRunInOrder : Prop :=
  ∀ (cs : List Instr) (s : State) (rest : List Pins), s.pins = (encodeScript cs).map offer ++ rest →
    Sys2Proof.core.run cs.length s = runScript cs { s with pins := rest }

/-- 60_exceptions.md section 5 (R171, marked by the spec as its own inference) and 44_oneshot_hex_host.md section 4 (R155). Whatever the
interleaving of the steps of several instances, each ends as if it had taken its own steps alone. Whatever the interleaving of
any number of host calls, on different engines or in turns on one, a call that has returned holds no buffer and has done exactly
what it does alone on any engine with `FAULT = None`; and a call can return (that a call is a sequence of such steps, and waits
while another holds its engine, is the model's form of R155, assumption log 9). -/
def Obligations.InstancesDoNotInterfere : Prop :=
  (∀ (sched : List Nat) (sys : List State) (j : Nat) (s : State), sys[j]? = some s →
    (runSchedule sched sys)[j]? = some (stepsAlone (sched.count j) s)) ∧
  (∀ (p : HostParams) (sys : HostSystem), p.wf →
    (∀ c ∈ sys.calls, c = Call.start c.collaborators c.request c.engine) → (∀ e ∈ sys.engines, e.fault = .none) →
    (∀ (sched : List Nat) (k : Nat) (c d : Call) (status : Int), sys.calls[k]? = some c →
      (sys.run p sched).calls[k]? = some d → d.stage = .done status →
        d.input = none ∧ d.output = none ∧
        ∀ s : State, s.fault = .none →
          ∃ t, serve p c.collaborators c.request s = .next ⟨status, t, d.events⟩) ∧
    (∀ (k : Nat) (c : Call), sys.calls[k]? = some c → c.engine < sys.engines.length →
      ∃ (n : Nat) (d : Call) (status : Int), (sys.run p (List.replicate n k)).calls[k]? = some d ∧
        d.stage = .done status))

/-! ### Text form and notation (44_oneshot_hex_host.md section 2, 30_encoding.md section 5) -/

/-- 44_oneshot_hex_host.md section 2 (R139, its character codes supplied from general knowledge, G11): the two characters of every byte, lowercase, most significant nibble first; 64 of them for a digest, and no two
byte strings have the same text. -/
def Obligations.HexTextOfADigest : Prop :=
  (∀ v : BitVec 4, (v.toNat ≤ 9 → (hexDigit v).toNat = 0x30 + v.toNat) ∧
    (10 ≤ v.toNat → (hexDigit v).toNat = 0x61 + (v.toNat - 10))) ∧
  (∀ (bs : List Byte) (i : Nat) (b : Byte), bs[i]? = some b →
    (hexText bs)[2 * i]? = some (hexDigit (b.extractLsb' 4 4)) ∧
    (hexText bs)[2 * i + 1]? = some (hexDigit (b.extractLsb' 0 4))) ∧
  (∀ m : List Byte, (hexText (sha256 m)).length = 64) ∧
  (∀ bs cs : List Byte, hexText bs = hexText cs → bs = cs)

/-- 44_oneshot_hex_host.md section 3 (R140, R188, the expected text supplied from general knowledge, G8): the start-up self-test passes from every state with `FAULT = None`. -/
def Obligations.SelfTestPasses : Prop :=
  ∀ s : State, s.fault = .none → selfTestPasses s = true

/-- 30_encoding.md section 5 (R68, R69; readings of the model in assumption log 8): the lines of a script: the three commands, the forms of a byte, the comment, and the macros over a text. -/
def Obligations.ScriptLinesAreRead : Prop :=
  parseLine "INIT".toList = some [.init] ∧ parseLine "FINAL".toList = some [.final] ∧
  (∀ b : Byte, parseLine ("UPD 0x".toList ++ hexText [b]) = some [.upd b]) ∧
  (∀ n < 256, parseLine ("UPD ".toList ++ Nat.toDigits 10 n) = some [.upd (BitVec.ofNat 8 n)]) ∧
  parseLine "UPD 'a' ; the first letter".toList = some [.upd 0x61] ∧
  parseLine "UPDATE \"abc\"".toList = some (updateMacro [0x61, 0x62, 0x63]) ∧
  parseLine "HASH1 \"\"".toList = some (hash1Macro [])

/-! ### The host: Boundary Service (44_oneshot_hex_host.md section 4) -/

/-- R146: a length outside `[1, MAX_INPUT_SIZE]` is rejected with `InvalidLength` before anything is acquired, with
the engine untouched. -/
def Obligations.HostRejectsLengthsOutOfRange : Prop :=
  ∀ (p : HostParams) (c : Collaborators) (req : Request) (s : State),
    req.sourceLength ≤ 0 ∨ (p.maxInputSize : Int) + 1 ≤ req.sourceLength →
      serve p c req s = .next ⟨p.invalidLength, s, []⟩

/-- 44_oneshot_hex_host.md section 4 (R148, R150, R151, R154, R157; the digest is the one of R138, assumption log 9): where every
collaborator succeeds, from any engine with `FAULT = None` and for every length from 1 to `MAX_INPUT_SIZE`, the call returns 0, the
caller's destination receives the 32 bytes of the digest of exactly the `sourceLength` bytes of the caller's memory from
`sourcePointer` on, and both buffers are released. -/
def Obligations.HostDeliversTheDigest : Prop :=
  ∀ (p : HostParams) (c : Collaborators) (req : Request) (s : State),
    p.wf → s.fault = .none → 1 ≤ req.sourceLength → req.sourceLength ≤ p.maxInputSize →
    c.acquireInput = true → c.acquireOutput = true →
    c.copyFromCaller req.sourcePointer req.sourceLength.toNat = true →
    (∀ bs, c.copyToCaller req.destinationPointer bs = true) →
      ∃ (m : List Byte) (t : State), m.length = req.sourceLength.toNat ∧
        (∀ i < req.sourceLength.toNat, m[i]? = some (c.callerByte (req.sourcePointer + i))) ∧
        Succeeded t ∧ serve p c req s =
          .next ⟨0, t, acquireBoth ++ [.copiedOut req.destinationPointer (sha256 m)] ++ releaseBoth⟩

/-- 44_oneshot_hex_host.md section 4 (R151, R152, R153, R156): however a call ends, each buffer is released as often as it was acquired; the status is 0
exactly where a digest was delivered, and negative otherwise; what is delivered is never a part of a digest; an engine with
`FAULT ≠ None` at the end means that nothing was copied out; and where the engine faults in step 4 the call fails with the code
for that and both buffers are released. The order of the events in that last clause, input before output in acquisition and
in release, is the model's choice (assumption log 9). -/
def Obligations.HostReleasesAndReports : Prop :=
  ∀ (p : HostParams) (c : Collaborators) (req : Request) (s : State) (r : Served), p.wf →
    serve p c req s = .next r →
      (∀ b : Scratch, r.events.count (.acquired b) = r.events.count (.released b)) ∧
      (r.status = 0 ↔ ∃ bs, .copiedOut req.destinationPointer bs ∈ r.events) ∧
      (r.status ≠ 0 → r.status ∈ p.failureCodes ∧ r.status < 0) ∧
      (∀ d bs, .copiedOut d bs ∈ r.events → d = req.destinationPointer ∧ bs.length = 32) ∧
      (r.engine.fault ≠ .none → ∀ d bs, .copiedOut d bs ∉ r.events) ∧
      (∀ t : State, 1 ≤ req.sourceLength → req.sourceLength ≤ p.maxInputSize → c.acquireInput = true →
        c.acquireOutput = true → c.copiesIn req = true → hash1 (c.source req) s = .next t → t.fault ≠ .none →
          r = ⟨p.engineFault, t, acquireBoth ++ releaseBoth⟩)
end

