-- ==== Sys2Proof/Laws/Compress.lean ====
section
/-! SUPPORT. The sizes of the constants and of the schedule, and the round equations, one lemma per definition. -/

namespace Sys2Proof.Machine

@[simp] theorem roundConstants_length : roundConstants.length = 64 := rfl

theorem extendSchedule_length (n : Nat) (w : List Word) : (extendSchedule n w).length = w.length + n := by
  induction n generalizing w with
  | zero => rfl
  | succ n ih => rw [extendSchedule, ih, List.length_append]; simp; omega

/-- More schedule words leave the earlier ones alone. -/
theorem extendSchedule_getElem? (n : Nat) (w : List Word) (t : Nat) (h : t < w.length) :
    (extendSchedule n w)[t]? = w[t]? := by
  induction n generalizing w with
  | zero => rfl
  | succ n ih =>
    rw [extendSchedule, ih _ (by simp; omega), List.getElem?_append_left h]

@[simp] theorem schedule_length (blk : Block) : (schedule blk).length = 64 := by
  rw [schedule, extendSchedule_length, List.length_ofFn]

/-- `compress` is the rounds from the loaded accumulator and the add-back (R128). -/
theorem compress_eq (hin : Vector Word 8) (blk : Block) :
    compress hin blk = addBack hin (runRounds (roundConstants.zip (schedule blk)) (loadWorking hin)) := by
  unfold compress; rfl

@[simp] theorem runRounds_nil (s : Working) : runRounds [] s = s := rfl
@[simp] theorem runRounds_cons (kw : Word × Word) (kws : List (Word × Word)) (s : Working) :
    runRounds (kw :: kws) s = runRounds kws (shaRound s kw.1 kw.2) := rfl

end Sys2Proof.Machine
end

