-- ==== Sys2Proof/Laws/Host.lean ====
section
/-! SUPPORT. The host: the length check, the bytes a copy-in stages, what a step of a call leaves alone, and when an engine is
free. -/

namespace Sys2Proof.Machine

theorem inRange_iff (req : Request) (p : HostParams) :
    req.inRange p = true ↔ 1 ≤ req.sourceLength ∧ req.sourceLength ≤ p.maxInputSize := by
  simp [Request.inRange]

@[simp] theorem source_length (c : Collaborators) (req : Request) :
    (c.source req).length = req.sourceLength.toNat := by
  simp [Collaborators.source]

theorem source_getElem? (c : Collaborators) (req : Request) {i : Nat} (h : i < req.sourceLength.toNat) :
    (c.source req)[i]? = some (c.callerByte (req.sourcePointer + i)) := by
  simp [Collaborators.source, h]

/-- What was copied to the front of a zero-filled buffer is read back from its front (R147, R148, R150). -/
theorem overwriteFront_take (p : HostParams) {bs : List Byte} (h : bs.length ≤ p.scratchSize) :
    (overwriteFront (zeroBuffer p) bs).take bs.length = bs := by
  unfold overwriteFront zeroBuffer
  rw [List.take_take, List.take_append_of_le_length (by simp), List.length_replicate, Nat.min_eq_left h, List.take_length]

/-- A read of the digest port that gives a value needs `digest_valid = 1`, so no fault (R22, R156). -/
theorem readDigestBytes_digestValid {s : State} {dg : List Byte} (h : readDigestBytes s = some dg) :
    s.digestValid = true := by
  unfold readDigestBytes State.readDigest at h
  cases hv : s.digestValid
  · simp [hv] at h
  · rfl

/-- A step of a call changes neither what it was called with nor which engine it uses. -/
theorem callStep_keeps (p : HostParams) (free : Bool) (c : Call) (e : State) :
    (c.step p free e).1.collaborators = c.collaborators ∧ (c.step p free e).1.request = c.request ∧
      (c.step p free e).1.engine = c.engine := by
  unfold Call.step
  split <;> try (simp only; split <;> exact ⟨rfl, rfl, rfl⟩)
  · unfold Call.hashStep
    split <;> split <;> exact ⟨rfl, rfl, rfl⟩
  · exact ⟨rfl, rfl, rfl⟩
  · exact ⟨rfl, rfl, rfl⟩

/-- A call moves its engine only while it holds it (R155). -/
theorem callStep_engine {p : HostParams} {free : Bool} {c : Call} {e : State} (h : c.holdsEngine = false) :
    (c.step p free e).2 = e := by
  unfold Call.step
  split
  case h_6 hs => simp [Call.holdsEngine, hs] at h
  all_goals rfl

/-- A call takes only a free engine (R155, R189). -/
theorem callStep_takes_free {p : HostParams} {free : Bool} {c : Call} {e : State} (h : c.holdsEngine = false)
    (h' : (c.step p free e).1.holdsEngine = true) : free = true := by
  cases free with
  | true => rfl
  | false =>
    cases hs : c.stage <;> simp only [Call.step, hs] at h' <;> (try split at h') <;>
      simp_all [Call.holdsEngine]

/-- An engine is free where no call holds it. -/
theorem engineFree_iff (sys : HostSystem) (n : Nat) :
    sys.engineFree n = true ↔ ∀ c ∈ sys.calls, c.holdsEngine = true → c.engine ≠ n := by
  simp only [HostSystem.engineFree, List.all_eq_true]
  refine forall₂_congr fun c _ => ?_
  cases c.holdsEngine <;> simp

theorem stepCall_moves {p : HostParams} {k : Nat} {sys : HostSystem} {c : Call} {e : State}
    (hc : sys.calls[k]? = some c) (he : sys.engines[c.engine]? = some e) :
    sys.stepCall p k =
      HostSystem.mk (sys.calls.set k (c.step p (sys.engineFree c.engine) e).1)
        (sys.engines.set c.engine (c.step p (sys.engineFree c.engine) e).2) := by
  simp only [HostSystem.stepCall, hc, he]

@[simp] theorem run_nil (p : HostParams) (sys : HostSystem) : sys.run p [] = sys := rfl
@[simp] theorem run_cons (p : HostParams) (k : Nat) (ks : List Nat) (sys : HostSystem) :
    sys.run p (k :: ks) = (sys.stepCall p k).run p ks := rfl

end Sys2Proof.Machine
end

