-- ==== Sys2Proof/Laws/Memory.lean ====
section
/-! SUPPORT. The laws of a byte space: a read after a write, and every operation keeps the canonical form. -/

namespace Sys2Proof.Machine

@[simp] theorem Memory.read_nil (a : Nat) : Memory.read [] a = none := rfl

theorem Memory.read_cons (c : Host.Cell) (m : Memory) (a : Nat) :
    Memory.read (c :: m) a = if c.1 = a then some c.2 else Memory.read m a := rfl

/-- A read of the byte just written gives it. -/
@[simp] theorem Memory.read_write_same (m : Memory) (a : Nat) (b : Byte) :
    (m.write a b).read a = some b := by
  induction m with
  | nil => simp [Memory.write, Memory.read]
  | cons c m ih =>
    unfold Memory.write
    split
    · simp [Memory.read]
    · split
      · simp [Memory.read]
      · rename_i h1 h2
        rw [Memory.read_cons, if_neg (fun h => h2 h.symm), ih]

/-- A write leaves every other byte alone. -/
theorem Memory.read_write_other (m : Memory) {a x : Nat} (b : Byte) (h : x ≠ a) :
    (m.write a b).read x = m.read x := by
  induction m with
  | nil => simp [Memory.write, Memory.read, Ne.symm h]
  | cons c m ih =>
    unfold Memory.write
    split
    · simp [Memory.read, Ne.symm h]
    · split
      · rename_i h1 h2
        simp only [Memory.read_cons]
        rw [if_neg (Ne.symm h), if_neg (fun hc => h (by omega))]
      · simp only [Memory.read_cons, ih]

/-- A read after a write, in one form. -/
theorem Memory.read_write (m : Memory) (a x : Nat) (b : Byte) :
    (m.write a b).read x = if x = a then some b else m.read x := by
  split
  · rename_i h; rw [h, Memory.read_write_same]
  · rename_i h; exact Memory.read_write_other m b h

/-- What `writeBytes` leaves at each address. -/
theorem Memory.read_writeBytes (bs : List Byte) (m : Memory) (a x : Nat) :
    (m.writeBytes a bs).read x = if a ≤ x ∧ x < a + bs.length then bs[x - a]? else m.read x := by
  induction bs generalizing m a with
  | nil => simp [Memory.writeBytes]
  | cons b bs ih =>
    simp only [Memory.writeBytes, ih, Memory.read_write, List.length_cons]
    by_cases h1 : a + 1 ≤ x ∧ x < a + 1 + bs.length
    · rw [if_pos h1, if_pos (by omega), show x - a = (x - (a + 1)) + 1 by omega, List.getElem?_cons_succ]
    · rw [if_neg h1]
      by_cases h2 : x = a
      · subst h2; simp
      · rw [if_neg h2, if_neg (by omega)]

/-- What `zeroFrom` leaves at each address. -/
theorem Memory.read_zeroFrom (n : Nat) (m : Memory) (a x : Nat) :
    (m.zeroFrom a n).read x = if a ≤ x ∧ x < a + n then some 0x00 else m.read x := by
  induction n generalizing m a with
  | zero => rw [if_neg (by omega)]; rfl
  | succ n ih =>
    simp only [Memory.zeroFrom, ih, Memory.read_write]
    by_cases h1 : a + 1 ≤ x ∧ x < a + 1 + n
    · rw [if_pos h1, if_pos (by omega)]
    · rw [if_neg h1]
      by_cases h2 : x = a
      · rw [if_pos h2, if_pos (by omega)]
      · rw [if_neg h2, if_neg (by omega)]

/-- What `zeroUpTo` leaves at each address. -/
theorem Memory.read_zeroUpTo (m : Memory) (k limit x : Nat) :
    (m.zeroUpTo k limit).read x = if k ≤ x ∧ x < limit then some 0x00 else m.read x := by
  unfold Memory.zeroUpTo
  rw [Memory.read_zeroFrom]
  by_cases h : k ≤ x ∧ x < limit
  · rw [if_pos h, if_pos (by omega)]
  · rw [if_neg h, if_neg (by omega)]

@[simp] theorem bigEndian_length (n : Nat) (v : BitVec (8 * n)) : (bigEndian n v).length = n := by
  simp [bigEndian]

/-- What `MemWrite` leaves at each address. -/
theorem Memory.read_writeBE (m : Memory) (a n : Nat) (v : BitVec (8 * n)) (x : Nat) :
    (m.writeBE a n v).read x =
      if a ≤ x ∧ x < a + n then some (v.extractLsb' (8 * (n - 1 - (x - a))) 8) else m.read x := by
  unfold Memory.writeBE
  rw [Memory.read_writeBytes, bigEndian_length]
  split
  · rename_i h
    simp [bigEndian, List.getElem?_range (show x - a < n by omega)]
  · rfl

/-- `PB` gives a whole block exactly where its 64 bytes hold values, and the block is those bytes. -/
theorem Memory.block?_eq_some (m : Memory) (blk : Block) :
    m.block? = some blk ↔ ∀ i : Fin 64, m.read i.val = some blk[i] := by
  by_cases hb : m.holdsBelow 64 = true
  · have hs : ∀ i : Fin 64, m.read i.val = some ((m.read i.val).getD 0) := fun i => by
      have hi := (List.all_eq_true.mp hb) i.val (List.mem_range.mpr i.isLt)
      obtain ⟨b, hr⟩ := Option.isSome_iff_exists.mp hi
      rw [hr, Option.getD_some]
    rw [Memory.block?, if_pos hb, Option.some_inj]
    constructor
    · rintro rfl i
      rw [Fin.getElem_fin, Vector.getElem_ofFn]
      exact hs i
    · intro h
      refine Vector.ext fun i hi => ?_
      rw [Vector.getElem_ofFn, h ⟨i, hi⟩, Option.getD_some, Fin.getElem_fin]
  · rw [Memory.block?, if_neg hb]
    refine ⟨fun h => (Option.some_ne_none _ h.symm).elim, fun h => (hb ?_).elim⟩
    exact List.all_eq_true.mpr fun a ha =>
      Option.isSome_iff_exists.mpr ⟨_, h ⟨a, List.mem_range.mp ha⟩⟩

/-- Where the 64 bytes hold values there is a block. -/
theorem Memory.block?_isSome (m : Memory) (h : ∀ a < 64, m.read a ≠ none) : ∃ blk, m.block? = some blk := by
  have hb : m.holdsBelow 64 = true :=
    List.all_eq_true.mpr fun a ha => Option.isSome_iff_ne_none.mpr (h a (List.mem_range.mp ha))
  exact ⟨_, if_pos hb⟩

/-- Two spaces that read alike below 64 hold the same block. -/
theorem Memory.block?_congr {m m' : Memory} (h : ∀ a < 64, m.read a = m'.read a) : m.block? = m'.block? := by
  have one : ∀ {m m' : Memory}, (∀ a < 64, m.read a = m'.read a) →
      ∀ blk, m.block? = some blk → m'.block? = some blk := by
    intro m m' h blk hb
    rw [Memory.block?_eq_some] at *
    intro i
    rw [← h i.val i.isLt]
    exact hb i
  cases hb : m.block? with
  | some blk => exact (one h blk hb).symm
  | none =>
    cases hb' : m'.block? with
    | none => rfl
    | some blk => rw [one (fun a ha => (h a ha).symm) blk hb'] at hb; cases hb

/-- What `writeWords` leaves at each address. -/
theorem Memory.read_writeWords (ws : List Word) (m : Memory) (a x : Nat) :
    (m.writeWords a ws).read x =
      if a ≤ x ∧ x < a + 4 * ws.length then
        (ws[(x - a) / 4]?).map fun w => w.extractLsb' (8 * (3 - (x - a) % 4)) 8
      else m.read x := by
  induction ws generalizing m a with
  | nil => simp [Memory.writeWords]
  | cons w ws ih =>
    simp only [Memory.writeWords, ih, List.length_cons]
    rw [Memory.read_writeBE (n := 4)]
    by_cases h1 : a + 4 ≤ x ∧ x < a + 4 + 4 * ws.length
    · rw [if_pos h1, if_pos (by omega), show (x - a) / 4 = (x - (a + 4)) / 4 + 1 by omega,
        show (x - a) % 4 = (x - (a + 4)) % 4 by omega, List.getElem?_cons_succ]
    · rw [if_neg h1]
      by_cases h2 : a ≤ x ∧ x < a + 4
      · rw [if_pos h2, if_pos (by omega), show (x - a) / 4 = 0 by omega, show (x - a) % 4 = x - a by omega]
        rfl
      · rw [if_neg h2, if_neg (by omega)]

/-- What a digest register just written holds at each address. -/
theorem emitDigest_read (h : Vector Word 8) (x : Nat) :
    (emitDigest h).read x =
      if x < 32 then (h.toList[x / 4]?).map fun w => w.extractLsb' (8 * (3 - x % 4)) 8 else none := by
  unfold emitDigest
  rw [Memory.read_writeWords]
  simp

/-- The listed addresses are those that hold a value. -/
theorem Memory.mem_addresses_iff (m : Memory) (a : Nat) : a ∈ m.map Prod.fst ↔ m.read a ≠ none := by
  induction m with
  | nil => simp
  | cons c m ih =>
    rw [Memory.read_cons, List.map_cons, List.mem_cons, ih]
    split
    · simp_all
    · rename_i h
      simp [Ne.symm h]

/-- A byte stored right after the bytes held is listed right after them. -/
theorem Memory.write_at_end {m : Memory} {n : Nat} (h : m.map Prod.fst = List.range n) (b : Byte) :
    (m.write n b).map Prod.fst = List.range (n + 1) := by
  have app : ∀ m : Memory, (∀ c ∈ m, c.1 < n) → m.write n b = m ++ [(n, b)] := by
    intro m
    induction m with
    | nil => intro _; rfl
    | cons c m ih =>
      intro h
      have := h c (by simp)
      rw [Memory.write, if_neg (by omega), if_neg (by omega), ih fun c hc => h c (by simp [hc])]
      rfl
  rw [app m, List.map_append, h, List.range_succ]
  · rfl
  · intro c hc
    have : c.1 ∈ m.map Prod.fst := List.mem_map.mpr ⟨c, hc, rfl⟩
    rw [h] at this
    simpa using this

/-! ### The canonical form -/

/-- A space with no byte listed is in canonical form, as `State.reset` has both. -/
theorem Memory.wf_nil (size : Nat) : Memory.wf size [] := ⟨List.Pairwise.nil, by simp⟩

theorem Memory.mem_write {m : Memory} {a : Nat} {b : Byte} {c : Host.Cell} (h : c ∈ m.write a b) :
    c = (a, b) ∨ c ∈ m := by
  induction m with
  | nil => simpa [Memory.write] using h
  | cons d m ih =>
    unfold Memory.write at h
    split at h
    · simpa using h
    · split at h
      · simp only [List.mem_cons] at h ⊢; tauto
      · simp only [List.mem_cons] at h ⊢
        rcases h with h | h
        · exact .inr (.inl h)
        · rcases ih h with h | h
          · exact .inl h
          · exact .inr (.inr h)

/-- A write inside the space keeps the canonical form. -/
theorem Memory.wf_write {size : Nat} {m : Memory} (h : Memory.wf size m) {a : Nat} (ha : a < size) (b : Byte) :
    Memory.wf size (m.write a b) := by
  obtain ⟨hs, hb⟩ := h
  refine ⟨?_, fun c hc => ?_⟩
  · clear hb
    induction m with
    | nil => simp [Memory.write]
    | cons d m ih =>
      rw [List.map_cons, List.pairwise_cons] at hs
      unfold Memory.write
      split
      · rename_i h1
        simp only [List.map_cons, List.pairwise_cons]
        refine ⟨fun x hx => ?_, hs⟩
        rcases List.mem_cons.mp hx with hx | hx
        · omega
        · have := hs.1 x hx; omega
      · split
        · rename_i h1 h2
          simp only [List.map_cons, List.pairwise_cons]
          exact ⟨fun x hx => by have := hs.1 x hx; omega, hs.2⟩
        · rename_i h1 h2
          simp only [List.map_cons, List.pairwise_cons]
          refine ⟨fun x hx => ?_, ih hs.2⟩
          obtain ⟨c, hc, rfl⟩ := List.mem_map.mp hx
          rcases Memory.mem_write hc with rfl | hc
          · simp only; omega
          · exact hs.1 _ (List.mem_map.mpr ⟨c, hc, rfl⟩)
  · rcases Memory.mem_write hc with rfl | hc
    · exact ha
    · exact hb c hc

/-- Bytes written inside the space keep the canonical form. -/
theorem Memory.wf_writeBytes {size : Nat} (bs : List Byte) {m : Memory} (h : Memory.wf size m) {a : Nat}
    (ha : a + bs.length ≤ size) : Memory.wf size (m.writeBytes a bs) := by
  induction bs generalizing m a with
  | nil => exact h
  | cons b bs ih =>
    simp only [List.length_cons] at ha
    exact ih (Memory.wf_write h (by omega) b) (by omega)

/-- `MemWrite` inside the space keeps the canonical form. -/
theorem Memory.wf_writeBE {size : Nat} {m : Memory} (h : Memory.wf size m) {a n : Nat} (ha : a + n ≤ size)
    (v : BitVec (8 * n)) : Memory.wf size (m.writeBE a n v) :=
  Memory.wf_writeBytes _ h (by simpa using ha)

/-- Zero fill inside the space keeps the canonical form. -/
theorem Memory.wf_zeroFrom {size : Nat} (n : Nat) {m : Memory} (h : Memory.wf size m) {a : Nat}
    (ha : a + n ≤ size) : Memory.wf size (m.zeroFrom a n) := by
  induction n generalizing m a with
  | zero => exact h
  | succ n ih => exact ih (Memory.wf_write h (by omega) _) (by omega)

/-- Zero fill up to an index inside the space keeps the canonical form. -/
theorem Memory.wf_zeroUpTo {size : Nat} {m : Memory} (h : Memory.wf size m) {k limit : Nat} (hl : limit ≤ size) :
    Memory.wf size (m.zeroUpTo k limit) := by
  unfold Memory.zeroUpTo
  by_cases hk : k ≤ limit
  · exact Memory.wf_zeroFrom _ h (by omega)
  · rw [show limit - k = 0 by omega]; exact h

/-- Words written inside the space keep the canonical form. -/
theorem Memory.wf_writeWords {size : Nat} (ws : List Word) {m : Memory} (h : Memory.wf size m) {a : Nat}
    (ha : a + 4 * ws.length ≤ size) : Memory.wf size (m.writeWords a ws) := by
  induction ws generalizing m a with
  | nil => exact h
  | cons w ws ih =>
    simp only [List.length_cons] at ha
    exact ih (Memory.wf_writeBE (n := 4) h (by omega) w) (by omega)

/-- `DG` after `FINAL` is in canonical form. -/
theorem emitDigest_wf (h : Vector Word 8) : Memory.wf 32 (emitDigest h) :=
  Memory.wf_writeWords _ (Memory.wf_nil 32) (by simp)

/-- Both spaces of `State.reset` are in canonical form. -/
theorem reset_memory_wf : Memory.wf 64 State.reset.pb ∧ Memory.wf 32 State.reset.dg :=
  ⟨Memory.wf_nil 64, Memory.wf_nil 32⟩

end Sys2Proof.Machine
end

