-- ==== Sys2Proof/Laws/State.lean ====
section
/-! SUPPORT. One lemma per field per update of State, each true by unfolding, so that no proof unfolds a record
update. -/

namespace Sys2Proof.Machine

section Raise
variable (s : State) (f : FaultCode)

@[simp] theorem raise_h : (s.raise f).h = s.h := rfl
@[simp] theorem raise_pb : (s.raise f).pb = s.pb := rfl
@[simp] theorem raise_pl : (s.raise f).pl = s.pl := rfl
@[simp] theorem raise_tbl : (s.raise f).tbl = s.tbl := rfl
@[simp] theorem raise_phase : (s.raise f).phase = s.phase := rfl
@[simp] theorem raise_fault : (s.raise f).fault = f := rfl
@[simp] theorem raise_dg : (s.raise f).dg = s.dg := rfl
@[simp] theorem raise_pins : (s.raise f).pins = s.pins := rfl
@[simp] theorem raise_freeIx : (s.raise f).freeIx = s.freeIx := rfl

end Raise

section StartMessage
variable (s : State)

@[simp] theorem startMessage_h : (startMessage s).h = initialHash := rfl
@[simp] theorem startMessage_pb : (startMessage s).pb = [] := rfl
@[simp] theorem startMessage_pl : (startMessage s).pl = 0 := rfl
@[simp] theorem startMessage_tbl : (startMessage s).tbl = 0 := rfl
@[simp] theorem startMessage_phase : (startMessage s).phase = .initialized := rfl
@[simp] theorem startMessage_fault : (startMessage s).fault = s.fault := rfl
@[simp] theorem startMessage_dg : (startMessage s).dg = [] := rfl
@[simp] theorem startMessage_pins : (startMessage s).pins = s.pins := rfl
@[simp] theorem startMessage_freeIx : (startMessage s).freeIx = s.freeIx := rfl

end StartMessage

section FinishMessage
variable (s : State) (h : Vector Word 8)

@[simp] theorem finishMessage_h : (finishMessage s h).h = h := rfl
@[simp] theorem finishMessage_pb : (finishMessage s h).pb = [] := rfl
@[simp] theorem finishMessage_pl : (finishMessage s h).pl = 0 := rfl
@[simp] theorem finishMessage_tbl : (finishMessage s h).tbl = Config.freeLength s.freeIx := rfl
@[simp] theorem finishMessage_phase : (finishMessage s h).phase = .finalized := rfl
@[simp] theorem finishMessage_fault : (finishMessage s h).fault = s.fault := rfl
@[simp] theorem finishMessage_dg : (finishMessage s h).dg = emitDigest h := rfl
@[simp] theorem finishMessage_pins : (finishMessage s h).pins = s.pins := rfl
@[simp] theorem finishMessage_freeIx : (finishMessage s h).freeIx = s.freeIx + 1 := rfl

end FinishMessage

section AfterReset
variable (n : Nat) (ps : List Pins)

@[simp] theorem afterReset_pb : (State.afterReset n ps).pb = [] := rfl
@[simp] theorem afterReset_phase : (State.afterReset n ps).phase = .uninitialized := rfl
@[simp] theorem afterReset_fault : (State.afterReset n ps).fault = .none := rfl
@[simp] theorem afterReset_dg : (State.afterReset n ps).dg = [] := rfl
@[simp] theorem afterReset_pins : (State.afterReset n ps).pins = ps := rfl
@[simp] theorem afterReset_freeIx : (State.afterReset n ps).freeIx = n + 1 := rfl

end AfterReset

section WithFetchWord
variable (s : State) (nbits w : Nat)

@[simp] theorem withFetchWord_h : (s.withFetchWord nbits w).h = s.h := rfl
@[simp] theorem withFetchWord_pb : (s.withFetchWord nbits w).pb = s.pb := rfl
@[simp] theorem withFetchWord_pl : (s.withFetchWord nbits w).pl = s.pl := rfl
@[simp] theorem withFetchWord_tbl : (s.withFetchWord nbits w).tbl = s.tbl := rfl
@[simp] theorem withFetchWord_phase : (s.withFetchWord nbits w).phase = s.phase := rfl
@[simp] theorem withFetchWord_fault : (s.withFetchWord nbits w).fault = s.fault := rfl
@[simp] theorem withFetchWord_dg : (s.withFetchWord nbits w).dg = s.dg := rfl
@[simp] theorem withFetchWord_pins :
    (s.withFetchWord nbits w).pins = offer (tableWord nbits w) :: s.pins := rfl
@[simp] theorem withFetchWord_freeIx : (s.withFetchWord nbits w).freeIx = s.freeIx := rfl

end WithFetchWord

end Sys2Proof.Machine
end

