-- ==== Sys2Proof/Laws/Ops.lean ====
section
/-! SUPPORT. What each shared operation, each command and the step can do, said once: "if it answers next t, then one of
these cases holds". The provers cite these instead of unfolding the definitions. -/

namespace Sys2Proof.Machine

theorem takesData_iff (p : Phase) : p.takesData = true ↔ p = .initialized ∨ p = .absorbing := by
  cases p <;> simp [Phase.takesData]

theorem takesData_false_iff (p : Phase) : p.takesData = false ↔ p = .uninitialized ∨ p = .finalized := by
  cases p <;> simp [Phase.takesData]

theorem atCeiling_iff (s : State) : s.atCeiling = true ↔ s.pl = 63 ∧ s.tbl = tblCeiling := by
  simp [State.atCeiling]

/-- The discard check (R167). -/
theorem unlessFaulted_cases {s t : State} {k : Result} (h : unlessFaulted s k = .next t) :
    (s.fault ≠ .none ∧ t = s) ∨ (s.fault = .none ∧ k = .next t) := by
  unfold unlessFaulted at h
  split at h
  · exact .inr ⟨‹_›, h⟩
  · exact .inl ⟨‹_›, (Host.Outcome.next.inj h).symm⟩

theorem unlessFaulted_faulted {s : State} (k : Result) (h : s.fault ≠ .none) : unlessFaulted s k = .next s :=
  if_neg h

theorem unlessFaulted_clear {s : State} (k : Result) (h : s.fault = .none) : unlessFaulted s k = k :=
  if_pos h

/-- The phase check (R89, R103). -/
theorem requireMessage_cases {s t : State} {k : Result} (h : requireMessage s k = .next t) :
    (s.phase.takesData = false ∧ t = s.raise .invalidStateError) ∨ (s.phase.takesData = true ∧ k = .next t) := by
  unfold requireMessage at h
  split at h
  · exact .inr ⟨‹_›, h⟩
  · exact .inl ⟨eq_false_of_ne_true ‹_›, (Host.Outcome.next.inj h).symm⟩

theorem requireMessage_pass {s : State} (k : Result) (h : s.phase.takesData = true) : requireMessage s k = k :=
  if_pos h

theorem requireMessage_fail {s : State} (k : Result) (h : s.phase.takesData = false) :
    requireMessage s k = .next (s.raise .invalidStateError) := by
  simp [requireMessage, h]

/-- An illegal word (R164). -/
theorem illegalCommand_cases {s t : State} (h : illegalCommand s = .next t) :
    (s.fault ≠ .none ∧ t = s) ∨ (s.fault = .none ∧ t = s.raise .illegalCommand) := by
  rcases unlessFaulted_cases h with h | ⟨h1, h2⟩
  · exact .inl h
  · exact .inr ⟨h1, (Host.Outcome.next.inj h2).symm⟩

/-- `INIT` (R80). -/
theorem execInit_cases {s t : State} (h : execInit s = .next t) :
    (s.fault ≠ .none ∧ t = s) ∨ (s.fault = .none ∧ t = startMessage s) := by
  rcases unlessFaulted_cases h with h | ⟨h1, h2⟩
  · exact .inl h
  · exact .inr ⟨h1, (Host.Outcome.next.inj h2).symm⟩

/-- Block completion (R87). -/
theorem completeBlock_cases {s t : State} (h : completeBlock s = .next t) :
    ∃ blk, s.pb.block? = some blk ∧
      t = { s with h := compress s.h blk, tbl := s.tbl + 512, pl := 0, pb := [] } := by
  unfold completeBlock at h
  split at h
  · exact ⟨_, ‹_›, (Host.Outcome.next.inj h).symm⟩
  · cases h

/-- Absorbing one byte (R85, R86). -/
theorem absorbByte_cases {b : Byte} {s t : State} (h : absorbByte b s = .next t) :
    (s.pl < 63 ∧ t = { s with pb := s.pb.write s.fillIndex b, phase := .absorbing, pl := s.pl + 1 }) ∨
    (¬ s.pl < 63 ∧ ∃ blk, (s.pb.write s.fillIndex b).block? = some blk ∧
      t = { s with h := compress s.h blk, tbl := s.tbl + 512, pl := 0, pb := [], phase := .absorbing }) := by
  unfold absorbByte at h
  simp only at h
  split at h
  · exact .inl ⟨‹_›, (Host.Outcome.next.inj h).symm⟩
  · obtain ⟨blk, hb, ht⟩ := completeBlock_cases h
    exact .inr ⟨‹_›, blk, hb, ht⟩

/-- A byte that completes no block is stored at `PL` (R86). -/
theorem absorbByte_more {s : State} (b : Byte) (h : s.pl < 63) :
    absorbByte b s = .next { s with pb := s.pb.write s.fillIndex b, phase := .absorbing, pl := s.pl + 1 } :=
  if_pos h

/-- The 64th byte completes the block (R87). -/
theorem absorbByte_last {s : State} (b : Byte) (h : ¬ s.pl < 63) :
    absorbByte b s = completeBlock { s with pb := s.pb.write s.fillIndex b, phase := .absorbing } :=
  if_neg h

/-- With a whole block `compress` runs once (R87). -/
theorem completeBlock_some {s : State} {blk : Block} (h : s.pb.block? = some blk) :
    completeBlock s = .next { s with h := compress s.h blk, tbl := s.tbl + 512, pl := 0, pb := [] } := by
  rw [completeBlock, h]

/-- A `UPD` that passes its three checks absorbs its byte (R85). -/
theorem execUpd_absorbs {s : State} (b : Byte) (h1 : s.fault = .none) (h2 : s.phase.takesData = true)
    (h3 : s.atCeiling = false) : execUpd b s = absorbByte b s := by
  rw [execUpd, unlessFaulted_clear _ h1, requireMessage_pass _ h2, h3]
  rfl

/-- A `UPD` at the ceiling overflows (R88). -/
theorem execUpd_overflows {s : State} (b : Byte) (h1 : s.fault = .none) (h2 : s.phase.takesData = true)
    (h3 : s.atCeiling = true) : execUpd b s = .next (s.raise .lengthOverflow) := by
  rw [execUpd, unlessFaulted_clear _ h1, requireMessage_pass _ h2, h3]
  rfl

/-- A `FINAL` that passes its two checks finishes the message (R95). -/
theorem execFinal_finishes {s : State} (h1 : s.fault = .none) (h2 : s.phase.takesData = true) :
    execFinal s = finishBlocks s := by
  rw [execFinal, unlessFaulted_clear _ h1, requireMessage_pass _ h2]

/-- With its blocks whole a message is finished (R95). -/
theorem finishBlocks_some {s : State} {bs : List Block} (h : finalBlocks s = some bs) :
    finishBlocks s = .next (finishMessage s (bs.foldl compress s.h)) := by
  rw [finishBlocks, h]

/-- `UPD b` (R85): discarded, a wrong phase, an overflow, or one byte absorbed. -/
theorem execUpd_cases {b : Byte} {s t : State} (h : execUpd b s = .next t) :
    (s.fault ≠ .none ∧ t = s) ∨
    (s.fault = .none ∧ s.phase.takesData = false ∧ t = s.raise .invalidStateError) ∨
    (s.fault = .none ∧ s.phase.takesData = true ∧ s.atCeiling = true ∧ t = s.raise .lengthOverflow) ∨
    (s.fault = .none ∧ s.phase.takesData = true ∧ s.atCeiling = false ∧ absorbByte b s = .next t) := by
  rcases unlessFaulted_cases h with h | ⟨h1, h2⟩
  · exact .inl h
  · rcases requireMessage_cases h2 with ⟨h3, h4⟩ | ⟨h3, h4⟩
    · exact .inr (.inl ⟨h1, h3, h4⟩)
    · split at h4
      · exact .inr (.inr (.inl ⟨h1, h3, ‹_›, (Host.Outcome.next.inj h4).symm⟩))
      · exact .inr (.inr (.inr ⟨h1, h3, eq_false_of_ne_true ‹_›, h4⟩))

/-- Padding and the last compressions (R95). -/
theorem finishBlocks_cases {s t : State} (h : finishBlocks s = .next t) :
    ∃ bs, finalBlocks s = some bs ∧ t = finishMessage s (bs.foldl compress s.h) := by
  unfold finishBlocks at h
  split at h
  · exact ⟨_, ‹_›, (Host.Outcome.next.inj h).symm⟩
  · cases h

/-- `FINAL` (R95): discarded, a wrong phase, or the message finished. -/
theorem execFinal_cases {s t : State} (h : execFinal s = .next t) :
    (s.fault ≠ .none ∧ t = s) ∨
    (s.fault = .none ∧ s.phase.takesData = false ∧ t = s.raise .invalidStateError) ∨
    (s.fault = .none ∧ s.phase.takesData = true ∧
      ∃ bs, finalBlocks s = some bs ∧ t = finishMessage s (bs.foldl compress s.h)) := by
  rcases unlessFaulted_cases h with h | ⟨h1, h2⟩
  · exact .inl h
  · rcases requireMessage_cases h2 with ⟨h3, h4⟩ | ⟨h3, h4⟩
    · exact .inr (.inl ⟨h1, h3, h4⟩)
    · exact .inr (.inr ⟨h1, h3, finishBlocks_cases h4⟩)

/-- An accepted word (R164, R70). -/
theorem acceptWord_cases {w : CmdWord} {s t : State} (h : acceptWord w s = .next t) :
    (∃ i, decode w = .instr i ∧ exec i s = .next t) ∨
    (∃ why, decode w = .illegal why ∧ illegalCommand s = .next t) := by
  unfold acceptWord at h
  split at h
  · exact .inl ⟨_, ‹_›, h⟩
  · exact .inr ⟨_, ‹_›, h⟩

/-- One sample of the input ports (R3, R185). -/
theorem takeSample_cases {p : Pins} {s t : State} (h : takeSample p s = .next t) :
    (p.rst = true ∧ t = resetEngine s) ∨
    (p.rst = false ∧ p.cmdValid = true ∧ acceptWord p.cmd s = .next t) ∨
    (p.rst = false ∧ p.cmdValid = false ∧ t = s) := by
  unfold takeSample at h
  cases hr : p.rst
  · cases hv : p.cmdValid
    · simp [hr, hv, Pins.accepts] at h
      exact .inr (.inr ⟨rfl, rfl, h.symm⟩)
    · simp [hr, hv, Pins.accepts] at h
      exact .inr (.inl ⟨rfl, rfl, h⟩)
  · simp [hr] at h
    exact .inl ⟨rfl, h.symm⟩

/-- One step: nothing offered, or one sample taken. -/
theorem step_cases {s t : State} (h : step s = .next t) :
    (s.pins = [] ∧ t = s) ∨
    (∃ p rest, s.pins = p :: rest ∧ takeSample p { s with pins := rest } = .next t) := by
  unfold step at h
  split at h
  · exact .inl ⟨‹_›, (Host.Outcome.next.inj h).symm⟩
  · exact .inr ⟨_, _, ‹_›, h⟩

theorem andThen_next_cases {r : Result} {k : State → Result} {t : State} (h : andThen r k = .next t) :
    ∃ s, r = .next s ∧ k s = .next t := by
  cases r with
  | next s => exact ⟨s, rfl, h⟩
  | fault f => cases h
  | refused f => cases h

@[simp] theorem andThen_next (s : State) (k : State → Result) : andThen (.next s) k = k s := rfl
@[simp] theorem runScript_nil (s : State) : runScript [] s = .next s := rfl
@[simp] theorem runScript_cons (c : Instr) (cs : List Instr) (s : State) :
    runScript (c :: cs) s = andThen (exec c s) (runScript cs) := rfl

/-- Two scripts one after another (R68). -/
theorem runScript_append (a b : List Instr) (s : State) :
    runScript (a ++ b) s = andThen (runScript a s) (runScript b) := by
  induction a generalizing s with
  | nil => rfl
  | cons c a ih =>
    simp only [List.cons_append, runScript_cons]
    cases exec c s with
    | next t => simp [ih]
    | fault f => rfl
    | refused f => rfl

/-! ### The blocks of FINAL (R97 to R99) -/

/-- What the marked block holds at each address (R97). -/
theorem markedBlock_read (s : State) (x : Nat) :
    (markedBlock s).read x = if x = s.fillIndex then some 0x80 else s.pb.read x :=
  Memory.read_write _ _ _ _

/-- What a closed block holds at each address (R99). -/
theorem closeBlock_read (m : Memory) (k : Nat) (len : DWord) (x : Nat) :
    (closeBlock m k len).read x =
      if 56 ≤ x ∧ x < 64 then some (len.extractLsb' (8 * (63 - x)) 8)
      else if k ≤ x ∧ x < 56 then some 0x00 else m.read x := by
  unfold closeBlock
  rw [Memory.read_writeBE, Memory.read_zeroUpTo]
  split
  · rename_i h
    rw [show 8 - 1 - (x - 56) = 63 - x by omega]
  · rfl

/-- `FINAL` compresses one block or two (R100). -/
theorem finalBlocks_cases {s : State} {bs : List Block} (h : finalBlocks s = some bs) :
    (s.fillIndex < 56 ∧ ∃ b1, bs = [b1] ∧
      (closeBlock (markedBlock s) (s.fillIndex + 1) s.encodedLength).block? = some b1) ∨
    (56 ≤ s.fillIndex ∧ ∃ b1 b2, bs = [b1, b2] ∧
      ((markedBlock s).zeroUpTo (s.fillIndex + 1) 64).block? = some b1 ∧
      (closeBlock ((markedBlock s).zeroUpTo (s.fillIndex + 1) 64) 0 s.encodedLength).block? = some b2) := by
  unfold finalBlocks at h
  simp only at h
  split at h
  · rename_i hk
    split at h
    · rename_i b1 b2 h1 h2
      exact .inr ⟨hk, b1, b2, (Option.some.inj h).symm, h1, h2⟩
    · cases h
  · rename_i hk
    rw [Option.map_eq_some_iff] at h
    obtain ⟨b, hb, he⟩ := h
    exact .inl ⟨Nat.lt_of_not_le hk, b, he.symm, hb⟩

/-! ### The host's samples are not read by a command -/

/-- A result with other samples left. -/
def withPins (ps : List Pins) (r : Result) : Result :=
  andThen r fun t => .next { t with pins := ps }

theorem unlessFaulted_pins {s : State} {ps : List Pins} {k k' : Result} (h : k' = withPins ps k) :
    unlessFaulted { s with pins := ps } k' = withPins ps (unlessFaulted s k) := by
  subst h
  unfold unlessFaulted
  simp only
  split <;> rfl

theorem requireMessage_pins {s : State} {ps : List Pins} {k k' : Result} (h : k' = withPins ps k) :
    requireMessage { s with pins := ps } k' = withPins ps (requireMessage s k) := by
  subst h
  unfold requireMessage
  simp only
  split <;> rfl

/-- A command neither reads nor writes the samples the host still has. -/
theorem exec_pins (i : Instr) (s : State) (ps : List Pins) :
    exec i { s with pins := ps } = withPins ps (exec i s) := by
  cases i with
  | init => exact unlessFaulted_pins rfl
  | upd b =>
    refine unlessFaulted_pins (requireMessage_pins ?_)
    rw [show State.atCeiling { s with pins := ps } = s.atCeiling from rfl]
    cases s.atCeiling
    · simp only [Bool.false_eq_true, if_false]
      by_cases h : s.pl < 63
      · rw [absorbByte_more b h, absorbByte_more (s := { s with pins := ps }) b h]
        rfl
      · rw [absorbByte_last b h, absorbByte_last (s := { s with pins := ps }) b h]
        unfold completeBlock
        simp only [show State.fillIndex { s with pins := ps } = s.fillIndex from rfl]
        cases (s.pb.write s.fillIndex b).block? <;> rfl
    · rfl
  | final =>
    refine unlessFaulted_pins (requireMessage_pins ?_)
    unfold finishBlocks
    rw [show finalBlocks { s with pins := ps } = finalBlocks s from rfl]
    cases finalBlocks s <;> rfl

end Sys2Proof.Machine
end

