-- ==== Sys2Proof/Laws/PerInstr.lean ====
section
/-! SUPPORT. Statements about every command as syntax, one lemma per constructor. -/

namespace Sys2Proof.Laws

/-- A command's word lies in its own row of the opcode map (R61), and its fields are a well-formed `C16` (R65). -/
def EncodedInRow.Statement (i : Instr) : Prop :=
  encode i &&& rowMask i = rowMatch i ∧ (splitWord (encode i)).wf = true

theorem EncodedInRow.init : EncodedInRow.Statement .init := by unfold EncodedInRow.Statement; decide

theorem EncodedInRow.upd (b : Byte) : EncodedInRow.Statement (.upd b) := by
  unfold EncodedInRow.Statement
  revert b
  decide

theorem EncodedInRow.final : EncodedInRow.Statement .final := by unfold EncodedInRow.Statement; decide

end Sys2Proof.Laws
end

