-- ==== Sys2Proof/Tests/Slice0.lean ====
section
/-! SUPPORT. Tests on values of spec/95_test_vectors.md (V1 to V60) and of the rules, and for every statement with
hypotheses a theorem `witness_<statement>` that meets them together. -/

namespace Sys2Proof.Tests

open Sys2Proof Sys2Proof.Machine Sys2Proof.Safety

/-- Whether a result is a next state with the given property. -/
def onNext {σ : Type} (r : Host.Outcome σ Fault Refusal) (p : σ → Bool) : Bool :=
  match r with
  | .next t => p t
  | _ => false

/-- A state with accumulator `IV`, pending bytes `bs` and `FAULT = None`. -/
def stateOf (phase : Phase) (tbl : DWord) (bs : List Byte) : State where
  h := initialHash
  pb := Memory.writeBytes [] 0 bs
  pl := BitVec.ofNat 6 bs.length
  tbl := tbl
  phase := phase
  fault := .none
  dg := []
  pins := []
  freeIx := 1

/-- `n` bytes `b`. -/
def bytes (n : Nat) (b : Byte) : List Byte := List.replicate n b

/-- The 56 bytes of V23: for each of fourteen letters, four letters in a row. -/
def message56 : List Byte :=
  (List.range 14).flatMap fun i => (List.range 4).map fun j => BitVec.ofNat 8 (0x61 + i + j)

/-- The block of the message `"abc"` (V11). -/
def abcBlock : Block := blockAt (padMessage [0x61, 0x62, 0x63]) 0

/-! ### WellFormed: each check refuses an ill-formed term -/

theorem test_wellformed_commands : C16.wf ⟨0x01, 0x00⟩ ∧ C16.wf ⟨0x02, 0xFF⟩ ∧ C16.wf ⟨0x03, 0x00⟩ := by decide

theorem test_ill_op_zero : C16.wf ⟨0x00, 0x00⟩ = false := by decide

theorem test_ill_op_unassigned : C16.wf ⟨0x04, 0x00⟩ = false ∧ C16.wf ⟨0xFF, 0xFF⟩ = false := by decide

theorem test_ill_init_immediate : C16.wf ⟨0x01, 0x01⟩ = false := by decide

theorem test_ill_final_immediate : C16.wf ⟨0x03, 0x80⟩ = false := by decide

/-! ### Decode: words written out from R60 and R61, `op` then `imm8` -/

theorem test_decode_init : decode (0b00000001#8 ++ 0b00000000#8) = .instr .init := by decide

theorem test_decode_upd : decode (0b00000010#8 ++ 0b01100001#8) = .instr (.upd 0x61) := by decide

theorem test_decode_final : decode (0b00000011#8 ++ 0b00000000#8) = .instr .final := by decide

/-- The words of V55. -/
theorem test_decode_illegal :
    decode 0x0000 = .illegal .opZero ∧ decode 0x0101 = .illegal .immNotZero ∧ decode 0x01ff = .illegal .immNotZero ∧
    decode 0x0301 = .illegal .immNotZero ∧ decode 0x0400 = .illegal .opUnassigned ∧
    decode 0xffff = .illegal .opUnassigned := by decide

/-- The rows of spec/opcode_table.json, read by their numbering of bits; no command is longer than a word (R67). -/
theorem test_decode_table_words :
    decodeTableWord 16 256 = some .init ∧ decodeTableWord 16 512 = some (.upd 0) ∧
    decodeTableWord 16 768 = some .final ∧ decodeTableWord 16 0 = none ∧ decodeTableWord 24 256 = none := by decide

/-! ### The step: the first command after reset -/

/-- V15, through the command port. -/
theorem test_init_from_reset :
    onNext (step (State.reset.withFetchWord 16 0x0100)) (fun t =>
      t.h == initialHash && t.pl == 0 && t.tbl == 0 && t.status == 0x01 && !t.digestValid && t.pb == [] && t.dg == [])
      = true := by decide

/-- V19, V54: `INIT` discards a message with a block behind it and a byte pending. -/
theorem test_init_discards :
    onNext (exec .init (stateOf .absorbing 512 [0x61])) (fun t =>
      t == stateOf .initialized 0 []) = true := by decide

/-- V50. -/
theorem test_upd_from_reset :
    onNext (step (State.reset.withFetchWord 16 0x0261)) (fun t => t.status == 0x04) = true := by decide

/-- V55: the state is otherwise unchanged. -/
theorem test_illegal_words :
    ([0x0000, 0x0101, 0x01ff, 0x0301, 0x0400, 0xffff].all fun w =>
      onNext (acceptWord w (stateOf .initialized 0 [])) fun t =>
        t.status == 0x0d && t == { stateOf .initialized 0 [] with fault := .illegalCommand }) = true := by decide

/-- V57: a command after a fault is discarded. -/
theorem test_init_after_a_fault :
    onNext (exec .init { stateOf .uninitialized 0 [] with fault := .invalidStateError }) (fun t =>
      t.status == 0x04) = true := by decide

/-- R185: a command offered with `rst` is not accepted; the fault is cleared. -/
theorem test_reset_clears :
    onNext (step { stateOf .finalized 0 [] with fault := .lengthOverflow, pins := [⟨true, true, 0x0100⟩] }) (fun t =>
      t.status == 0x00) = true := by decide

/-! ### UPD -/

/-- V18. -/
theorem test_upd_completes_a_block :
    onNext (exec (.upd 0x61) (stateOf .absorbing 0 (bytes 63 0x61))) (fun t =>
      t.h == #v[0xdf5bb81c, 0xe81e0626, 0xfb45a894, 0x4fd40f31, 0xb25e6816, 0xd6d499c1, 0xab904929, 0x00635e66] &&
      t.pl == 0 && t.tbl == 0x200 && t.status == 0x02) = true := by decide +kernel

/-- V44, and V45 one byte earlier. -/
theorem test_upd_at_the_ceiling :
    onNext (exec (.upd 0xaa) (stateOf .absorbing 0xfffffffffffffe00 (bytes 63 0))) (fun t =>
      t.status == 0x0a &&
        t == { stateOf .absorbing 0xfffffffffffffe00 (bytes 63 0) with fault := .lengthOverflow }) = true ∧
    onNext (exec (.upd 0x00) (stateOf .absorbing 0xfffffffffffffe00 (bytes 62 0))) (fun t =>
      t == stateOf .absorbing 0xfffffffffffffe00 (bytes 63 0)) = true := by decide +kernel

/-! ### FINAL -/

/-- V21: `DG` and the digest port. -/
theorem test_final_abc :
    onNext (exec .final (stateOf .absorbing 0 [0x61, 0x62, 0x63])) (fun t =>
      onNext t.readDigest (fun v =>
        v == 0xba7816bf8f01cfea414140de5dae2223b00361a396177a9cb410ff61f20015ad) &&
      t.dg.take 4 == [(0, 0xba), (1, 0x78), (2, 0x16), (3, 0xbf)] && t.pl == 0 && t.status == 0x03) = true := by
  decide +kernel

/-- V23: two blocks. -/
theorem test_final_two_blocks :
    onNext (exec .final (stateOf .absorbing 0 message56)) (fun t =>
      onNext t.readDigest (fun v =>
        v == 0x248d6a61d20638b8e5c026930c3e6039a33ce45964ff2167f6ecedd419db06c1)) = true := by decide +kernel

/-- V46: the length at the ceiling, and V23 and V31: one block up to 55 pending bytes, two from 56 on. -/
theorem test_final_blocks :
    (stateOf .absorbing 0xfffffffffffffe00 (bytes 63 0)).encodedLength = 0xfffffffffffffff8 ∧
    ((finalBlocks (stateOf .absorbing 0 (bytes 55 0x61))).map List.length) = some 1 ∧
    ((finalBlocks (stateOf .absorbing 0 (bytes 56 0x61))).map List.length) = some 2 := by decide +kernel

/-! ### compress -/

/-- V1, V2. -/
theorem test_rotate_shift :
    rotr 1 0x80000001 = 0xc0000000 ∧ rotr 8 0x12345678 = 0x78123456 ∧ rotr 31 0x6a09e667 = 0xd413ccce ∧
    shr 3 0x80000001 = 0x10000000 ∧ shr 10 0x12345678 = 0x00048d15 := by decide

/-- V3 to V6, the rows that show each amount as one bit, and one more. -/
theorem test_sigmas :
    smallSigma0 0x80000000 = 0x11002000 ∧ smallSigma1 0x80000000 = 0x00205000 ∧
    bigSigma0 0x80000000 = 0x20040200 ∧ bigSigma1 0x80000000 = 0x02100040 ∧
    smallSigma0 0x00000001 = 0x02004000 ∧ smallSigma1 0x00000001 = 0x0000a000 ∧
    smallSigma0 0x6a09e667 = 0xba0cf582 ∧ smallSigma1 0x6a09e667 = 0xcfe5da3c ∧
    bigSigma0 0x6a09e667 = 0xce20b47e ∧ bigSigma1 0x6a09e667 = 0x55b65510 := by decide

/-- V7, V8. -/
theorem test_choose_majority :
    ch 0xffff0000 0x12345678 0x9abcdef0 = 0x1234def0 ∧ maj 0xffff0000 0x12345678 0x9abcdef0 = 0x9abc5670 ∧
    ch 0x510e527f 0x9b05688c 0x1f83d9ab = 0x1f85c98c ∧ maj 0x6a09e667 0xbb67ae85 0x3c6ef372 = 0x3a6fe667 := by decide

/-- V11. -/
theorem test_schedule_abc :
    (schedule abcBlock).take 1 = [0x61626380] ∧
    ((schedule abcBlock).drop 14).take 6 = [0, 0x18, 0x61626380, 0x000f0000, 0x7da86405, 0x600003c6] ∧
    (schedule abcBlock).drop 62 = [0xeeaba2cc, 0x12b1edeb] := by decide +kernel

/-- V12, round 0. -/
theorem test_round_zero :
    roundT1 0x428a2f98 0x61626380 (loadWorking initialHash) = 0x54da50e8 ∧
    roundT2 (loadWorking initialHash) = 0x08909ae5 ∧
    shaRound (loadWorking initialHash) 0x428a2f98 0x61626380 =
      ⟨0x5d6aebcd, 0x6a09e667, 0xbb67ae85, 0x3c6ef372, 0xfa2a4622, 0x510e527f, 0x9b05688c, 0x1f83d9ab⟩ := by decide

/-- V13, third row. -/
theorem test_compress_ones :
    compress (Vector.replicate 8 0xffffffff) (Vector.replicate 64 0xff) =
      #v[0x0598127a, 0xaf11706e, 0x77401fff, 0xd730c549, 0x0b84c867, 0xa98c6ca3, 0xd7f3c0f9, 0x06a78b79] := by
  decide +kernel

/-! ### The host: text form, script notation, Boundary Service -/

/-- V59. -/
theorem test_hex_text : hexText [0x00, 0x0f, 0xa5, 0xff] = "000fa5ff".toList := by decide

/-- V22: the digest of `"hello world"` as one function of the message. -/
theorem test_self_test_digest : hexText (sha256 selfTestMessage) = selfTestText := by decide +kernel

/-- R138: the padded message of V20 is one block, and that of 56 bytes two. -/
theorem test_padding : (padMessage []).length = 64 ∧ (padMessage message56).length = 128 := by
  decide +kernel

/-- R68, R69: a script with a comment, two forms of a byte and a macro. -/
theorem test_script :
    parseScript ["; start".toList, "INIT".toList, "UPD 97".toList, "UPDATE 0x62 99".toList, "FINAL".toList] =
      some [.init, .upd 0x61, .upd 0x62, .upd 0x63, .final] ∧
    parseScript ["UPD 256".toList] = none ∧ parseScript ["COMPRESS".toList] = none := by decide

/-- Parameters with the default `MAX_INPUT_SIZE` (R5). -/
def params : HostParams where
  maxInputSize := 1024
  scratchSize := 1024
  invalidLength := -1
  resourceExhausted := -2
  invalidSource := -3
  invalidDestination := -4
  engineFault := -5

theorem params_wf : params.wf := by decide

/-- Collaborators that all succeed; the caller's memory holds `0x61` everywhere. -/
def helpful : Collaborators where
  acquireInput := true
  acquireOutput := true
  copyFromCaller _ _ := true
  copyToCaller _ _ := true
  callerByte _ := 0x61

/-- V60, the two lengths that are rejected: nothing is acquired. -/
theorem test_host_length_bounds :
    onNext (serve params helpful ⟨0, 0, 0⟩ State.reset) (fun r => r.status == -1 && r.events == []) = true ∧
    onNext (serve params helpful ⟨0, 1025, 0⟩ State.reset) (fun r => r.status == -1 && r.events == []) = true := by
  decide

/-- R147, R152: a failed second acquisition gives the first buffer back, and a failed copy-in both. -/
theorem test_host_releases :
    onNext (serve params { helpful with acquireOutput := false } ⟨0, 1, 0⟩ State.reset) (fun r =>
      r.status == -2 && r.events == [.acquired .input, .released .input]) = true ∧
    onNext (serve params { helpful with copyFromCaller := fun _ _ => false } ⟨0, 1, 0⟩ State.reset) (fun r =>
      r.status == -3 && r.events == acquireBoth ++ releaseBoth) = true := by decide

/-! ### Witnesses: the hypotheses of each statement, met together

States at the ends of the ranges: `PL` 0, 55, 56, 62 and 63, `TBL` 0 and at the ceiling. -/

/-- A state right after `INIT`. -/
def fresh : State := stateOf .initialized 0 []

/-- A state with `PL = 63`. -/
def nearlyFull : State := stateOf .absorbing 0 (bytes 63 0x61)

/-- A state at the length ceiling. -/
def ceiling : State := stateOf .absorbing 0xfffffffffffffe00 (bytes 63 0x61)

/-- A state after `FINAL`, with `IV` in place of a digest. -/
def finished : State := finishMessage fresh initialHash

/-- `finished` after a command that faulted. -/
def misused : State := finished.raise .invalidStateError

/-- A state with the given sample as its only one. -/
def withPin (s : State) (p : Pins) : State := { s with pins := [p] }

/-- Where its blocks are whole, `FINAL` in a message ends in a next state with no fault. -/
theorem final_ends {s : State} {bs : List Block} (h1 : s.fault = .none) (h2 : s.phase.takesData = true)
    (h3 : finalBlocks s = some bs) :
    exec .final s = .next (finishMessage s (bs.foldl compress s.h)) :=
  (execFinal_finishes h1 h2).trans (finishBlocks_some h3)

/-- The padding of `fresh` is one whole block. -/
theorem fresh_blocks : ∃ b, finalBlocks fresh = some [b] := by
  have h : (finalBlocks fresh).map List.length = some 1 := by decide +kernel
  obtain ⟨bs, hb, hl⟩ := Option.map_eq_some_iff.mp h
  obtain ⟨b, rfl⟩ := List.length_eq_one_iff.mp hl
  exact ⟨b, hb⟩

/-- The padding of a state with 56 pending bytes is two whole blocks. -/
theorem two_blocks : ∃ b1 b2, finalBlocks (stateOf .absorbing 0 (bytes 56 0x61)) = some [b1, b2] := by
  have h : (finalBlocks (stateOf .absorbing 0 (bytes 56 0x61))).map List.length = some 2 := by decide +kernel
  obtain ⟨bs, hb, hl⟩ := Option.map_eq_some_iff.mp h
  obtain ⟨b1, b2, rfl⟩ := List.length_eq_two.mp hl
  exact ⟨b1, b2, hb⟩

/-- `FINAL` from `fresh`, then from 56 pending bytes. -/
theorem fresh_final : ∃ t, exec .final fresh = .next t ∧ t.fault = .none := by
  obtain ⟨b, hb⟩ := fresh_blocks
  exact ⟨_, final_ends rfl rfl hb, rfl⟩

theorem two_block_final :
    ∃ t, exec .final (stateOf .absorbing 0 (bytes 56 0x61)) = .next t ∧ t.fault = .none := by
  obtain ⟨b1, b2, hb⟩ := two_blocks
  exact ⟨_, final_ends rfl rfl hb, rfl⟩

/-- With the 64th byte stored, `nearlyFull`'s block is whole. -/
theorem nearlyFull_block (tbl : DWord) (b : Byte) :
    ∃ blk, ((stateOf .absorbing tbl (bytes 63 0x61)).pb.write 63 b).block? = some blk := by
  apply Memory.block?_isSome
  intro a ha
  rw [Memory.read_write]
  split
  · simp
  · exact (show ∀ a < 64, a ≠ 63 → (Memory.writeBytes [] 0 (bytes 63 0x61)).read a ≠ none by decide +kernel) a ha
      (by assumption)

/-- A `UPD` that completes a block ends in a next state with no fault. -/
theorem nearlyFull_upd (tbl : DWord) (b : Byte) (h : tbl ≠ tblCeiling) :
    ∃ t, exec (.upd b) (stateOf .absorbing tbl (bytes 63 0x61)) = .next t ∧ t.fault = .none := by
  obtain ⟨blk, hb⟩ := nearlyFull_block tbl b
  have hc : (stateOf .absorbing tbl (bytes 63 0x61)).atCeiling = false := by
    rw [Bool.eq_false_iff]
    intro hc
    exact h ((atCeiling_iff _).mp hc).2
  refine ⟨_, (execUpd_absorbs b rfl rfl hc).trans ((absorbByte_last b ?_).trans (completeBlock_some hb)), rfl⟩
  exact show ¬ (63 : BitVec 6) < 63 by decide

/-- A byte too many, at the command port. -/
theorem ceiling_overflows : acceptWord 0x02aa ceiling = .next (ceiling.raise .lengthOverflow) :=
  show execUpd 0xaa ceiling = _ from execUpd_overflows 0xaa rfl rfl (by decide)

theorem inv_fresh : Inv fresh := by constructor <;> decide

theorem inv_nearlyFull : Inv nearlyFull := by constructor <;> decide +kernel

theorem inv_ceiling : Inv ceiling := by constructor <;> decide +kernel

theorem inv_overflowed : Inv (ceiling.raise .lengthOverflow) := by constructor <;> decide +kernel

theorem inv_finished : Inv finished := by constructor <;> decide

theorem inv_misused : Inv misused := by constructor <;> decide

theorem witness_DecodeAndEncodeAgree :
    decode 0x0100 = .instr .init ∧ decode 0x02ff = .instr (.upd 0xff) ∧ decode 0x0300 = .instr .final := by decide

theorem witness_DecodeFollowsTheOpcodeMap : decode 0x0200 = .instr (.upd 0x00) := by decide

theorem witness_IllegalWordsRaiseIllegalCommand :
    (decode 0x01ff).instr? = none ∧ (decode 0x0400).instr? = none ∧ fresh.fault = .none := by decide

theorem witness_StepRunsTheDecodedCommand :
    (withPin fresh (offer 0x0261)).pins = offer 0x0261 :: [] ∧ (offer 0x0261).rst = false ∧
    (offer 0x0261).cmdValid = true ∧ decode (offer 0x0261).cmd = .instr (.upd 0x61) := by decide

/-- The three clauses: nothing offered, an idle sample, an illegal word. -/
theorem witness_StepWithoutACommandChangesNothing :
    fresh.pins = [] ∧
    ((withPin fresh ⟨false, false, 0x0100⟩).pins = ⟨false, false, 0x0100⟩ :: []) ∧
    ((withPin fresh (offer 0x0000)).pins = offer 0x0000 :: [] ∧ (offer 0x0000).rst = false ∧
      (offer 0x0000).cmdValid = true ∧ decode (offer 0x0000).cmd = .illegal .opZero) := by decide

theorem witness_ResetStepLeavesUninitialized :
    (withPin misused ⟨true, true, 0x0100⟩).pins = ⟨true, true, 0x0100⟩ :: [] ∧
    (⟨true, true, 0x0100⟩ : Pins).rst = true := ⟨rfl, rfl⟩

/-- Two states that differ in all four registers. -/
theorem witness_ResetContentsAreNotObservable :
    ∃ s t : State, s.phase = .uninitialized ∧ t.phase = .uninitialized ∧ s.fault = t.fault ∧ s.dg = t.dg ∧
      s.pins = t.pins ∧ s.freeIx = t.freeIx ∧ s.h ≠ t.h ∧ s.pb ≠ t.pb ∧ s.pl ≠ t.pl ∧ s.tbl ≠ t.tbl :=
  ⟨{ stateOf .uninitialized 7 [0x61] with h := Vector.replicate 8 0 }, stateOf .uninitialized 0 [],
    by decide⟩

theorem witness_InitStartsAMessage : finished.fault = .none ∧ misused.fault ≠ .none := by decide

/-- From a state with `FAULT = None`, and from a faulted one. -/
theorem witness_InitFrame :
    (exec .init finished = .next (startMessage finished) ∧ finished.fault = .none) ∧
    (exec .init misused = .next misused ∧ misused.fault ≠ .none) := ⟨⟨rfl, rfl⟩, rfl, by decide⟩

/-- At `PL = 0` and at `PL = 62`. -/
theorem witness_UpdAppendsAByte :
    (fresh.fault = .none ∧ inMessage fresh ∧ fresh.pl < 63 ∧ fresh.pl = 0) ∧
    ((stateOf .absorbing 0 (bytes 62 0x61)).fault = .none ∧ inMessage (stateOf .absorbing 0 (bytes 62 0x61)) ∧
      (stateOf .absorbing 0 (bytes 62 0x61)).pl < 63 ∧ (stateOf .absorbing 0 (bytes 62 0x61)).pl = 62) := by decide

theorem witness_UpdCompletesABlock :
    nearlyFull.fault = .none ∧ inMessage nearlyFull ∧ nearlyFull.pl = 63 ∧ nearlyFull.tbl.toNat % 512 = 0 ∧
    nearlyFull.tbl ≠ tblCeiling ∧ ∀ a < 63, nearlyFull.pb.read a ≠ none := by decide +kernel

theorem witness_UpdOverflow :
    ceiling.fault = .none ∧ inMessage ceiling ∧ ceiling.pl = 63 ∧ ceiling.tbl = tblCeiling ∧
    exec (.upd 0xaa) ceiling = .next (ceiling.raise .lengthOverflow) ∧
    (ceiling.raise .lengthOverflow).fault = .lengthOverflow :=
  ⟨rfl, .inr rfl, by decide, rfl, execUpd_overflows _ rfl rfl (by decide), rfl⟩

theorem witness_UpdPhaseCheck :
    ((stateOf .uninitialized 0 []).fault = .none ∧ (stateOf .uninitialized 0 []).phase = .uninitialized) ∧
    (finished.fault = .none ∧ finished.phase = .finalized) ∧
    (∃ t, inMessage nearlyFull ∧ exec (.upd 0x61) nearlyFull = .next t ∧ t.fault = .none) := by
  obtain ⟨t, h⟩ := nearlyFull_upd 0 0x61 (by decide)
  exact ⟨⟨rfl, rfl⟩, ⟨rfl, rfl⟩, t, .inr rfl, h⟩

/-- With `TBL_LO` at the top of its range and at 0, and at the ceiling. -/
theorem witness_TotalLengthCarriesBetweenHalves :
    (∀ tbl ∈ [(0 : DWord), 0x00000000fffffe00], ∃ t, inMessage (stateOf .absorbing tbl (bytes 63 0x61)) ∧
      (stateOf .absorbing tbl (bytes 63 0x61)).pl = 63 ∧
      exec (.upd 0x61) (stateOf .absorbing tbl (bytes 63 0x61)) = .next t ∧ t.fault = .none) ∧
    (exec (.upd 0x61) ceiling = .next (ceiling.raise .lengthOverflow) ∧ ceiling.fault = .none ∧
      (ceiling.raise .lengthOverflow).fault = .lengthOverflow) := by
  refine ⟨fun tbl h => ?_, execUpd_overflows _ rfl rfl (by decide), rfl, rfl⟩
  obtain ⟨t, ht⟩ := nearlyFull_upd tbl 0x61 (by rintro rfl; revert h; decide)
  exact ⟨t, .inr rfl, rfl, ht⟩

/-- A discarded byte, one that faults, one appended, one that completes a block. -/
theorem witness_UpdFrame :
    (exec (.upd 1) misused = .next misused ∧ misused.fault ≠ .none) ∧
    (exec (.upd 1) finished = .next misused ∧ misused.fault ≠ .none) ∧
    (∃ t, exec (.upd 1) fresh = .next t ∧ t.fault = .none ∧ fresh.pl < 63) ∧
    (∃ t, exec (.upd 1) nearlyFull = .next t ∧ t.fault = .none ∧ nearlyFull.pl = 63) := by
  obtain ⟨t, h1, h2⟩ := nearlyFull_upd 0 1 (by decide)
  exact ⟨⟨rfl, by decide⟩, ⟨rfl, by decide⟩, ⟨_, rfl, rfl, by decide⟩, t, h1, h2, rfl⟩

theorem witness_EncodedLengthDoesNotWrap :
    fresh.tbl.toNat ≤ 2 ^ 64 - 512 ∧ ceiling.tbl.toNat = 2 ^ 64 - 512 := by decide

/-- A length field in a block whose other bytes hold values. -/
theorem witness_LengthFieldIsBigEndian :
    ∃ blk, ((Memory.writeBytes [] 0 (bytes 64 0)).writeBE 56 8 0xfffffffffffffff8).block? = some blk := by
  apply Memory.block?_isSome
  decide +kernel

/-- At `PL = 0` and at `PL = 55`. -/
theorem witness_FinalWithOneBlock :
    (fresh.fault = .none ∧ inMessage fresh ∧ fresh.pl.toNat = 0 ∧ ∀ a < fresh.pl.toNat, fresh.pb.read a ≠ none) ∧
    ((stateOf .absorbing 0 (bytes 55 0x61)).fault = .none ∧ inMessage (stateOf .absorbing 0 (bytes 55 0x61)) ∧
      (stateOf .absorbing 0 (bytes 55 0x61)).pl.toNat = 55 ∧
      ∀ a < (stateOf .absorbing 0 (bytes 55 0x61)).pl.toNat,
        (stateOf .absorbing 0 (bytes 55 0x61)).pb.read a ≠ none) := by decide +kernel

/-- At `PL = 56` and at `PL = 63`. -/
theorem witness_FinalWithTwoBlocks :
    ((stateOf .absorbing 0 (bytes 56 0x61)).fault = .none ∧ inMessage (stateOf .absorbing 0 (bytes 56 0x61)) ∧
      (stateOf .absorbing 0 (bytes 56 0x61)).pl.toNat = 56 ∧
      ∀ a < (stateOf .absorbing 0 (bytes 56 0x61)).pl.toNat,
        (stateOf .absorbing 0 (bytes 56 0x61)).pb.read a ≠ none) ∧
    (ceiling.fault = .none ∧ inMessage ceiling ∧ ceiling.pl.toNat = 63 ∧
      ∀ a < ceiling.pl.toNat, ceiling.pb.read a ≠ none) := by decide +kernel

/-- The hypotheses shared by the statements on a `FINAL` that raises no fault, with one block and with two. -/
theorem final_witnesses :
    (∃ t, fresh.fault = .none ∧ exec .final fresh = .next t ∧ t.fault = .none) ∧
    (∃ t, (stateOf .absorbing 0 (bytes 56 0x61)).fault = .none ∧
      exec .final (stateOf .absorbing 0 (bytes 56 0x61)) = .next t ∧ t.fault = .none) := by
  obtain ⟨t, ht⟩ := fresh_final
  obtain ⟨u, hu⟩ := two_block_final
  exact ⟨⟨t, rfl, ht⟩, u, rfl, hu⟩

theorem witness_FinalEmitsTheDigest :
    ∃ s t, s.fault = .none ∧ exec .final s = .next t ∧ t.fault = .none := ⟨fresh, final_witnesses.1⟩

theorem witness_DigestPortAfterFinal :
    ∃ s t, s.fault = .none ∧ exec .final s = .next t ∧ t.fault = .none := ⟨_, final_witnesses.2⟩

theorem witness_FinalPhaseCheck :
    ((stateOf .uninitialized 0 []).fault = .none ∧ (stateOf .uninitialized 0 []).phase = .uninitialized) ∧
    (finished.fault = .none ∧ finished.phase = .finalized) ∧
    (∃ t, fresh.fault = .none ∧ inMessage fresh ∧ exec .final fresh = .next t) := by
  obtain ⟨t, ht, _⟩ := fresh_final
  exact ⟨⟨rfl, rfl⟩, ⟨rfl, rfl⟩, t, rfl, .inl rfl, ht⟩

theorem witness_StateAfterFinal :
    ∃ s t, s.fault = .none ∧ exec .final s = .next t ∧ t.fault = .none := ⟨fresh, final_witnesses.1⟩

/-- A discarded `FINAL`, one that faults, one that finishes. -/
theorem witness_FinalFrame :
    (exec .final misused = .next misused ∧ misused.fault ≠ .none) ∧
    (exec .final finished = .next misused ∧ misused.fault ≠ .none) ∧
    (∃ t, exec .final fresh = .next t ∧ t.fault = .none) :=
  ⟨⟨rfl, by decide⟩, ⟨rfl, by decide⟩, fresh_final⟩

/-- Two states that differ in a byte at `PL` and above, under each command. -/
theorem witness_StaleBytesAreNotRead :
    ∃ s t : State, SameMessage s t ∧ s.dg = t.dg ∧ s.pb ≠ t.pb ∧ (∃ s', exec .init s = .next s') ∧
      (∃ s', exec (.upd 0x61) s = .next s') ∧ (∃ s', exec .final s = .next s') := by
  obtain ⟨t, ht, _⟩ := fresh_final
  refine ⟨fresh, { fresh with pb := [(0, 0x6c), (5, 0x80)] },
    ⟨rfl, rfl, rfl, rfl, rfl, rfl, fun a h => absurd h (Nat.not_lt_zero a)⟩, rfl, by decide, ⟨_, rfl⟩, ⟨_, rfl⟩, t, ht⟩

/-- Both ends of the amounts. -/
theorem witness_RotateAndShift : (1 ≤ 1 ∧ 1 ≤ 31) ∧ (1 ≤ 31 ∧ 31 ≤ 31) := by decide

/-- The bits at which the three parts of a sigma function differ in kind: 0, and 31 where a shift has no bit. -/
theorem witness_SigmaFunctionsByBits : 0 < 32 ∧ 31 < 32 := by decide

theorem witness_ChooseAndMajority : 0 < 32 ∧ 31 < 32 := by decide

theorem witness_RoundConstantsFromPrimes :
    Nat.Prime 2 ∧ roundConstants[0]? = some 0x428a2f98 ∧ Nat.Prime 311 ∧ roundConstants[63]? = some 0xc67178f2 := by
  refine ⟨by norm_num, rfl, by norm_num, rfl⟩

theorem witness_BlockWordsAreBigEndian :
    ∃ blk, (Memory.writeBytes [] 0 (bytes 64 0x61)).block? = some blk := by
  apply Memory.block?_isSome
  decide +kernel

/-- At both ends of the recurrence. -/
theorem witness_ScheduleRecurrence :
    (∃ w2 w7 w15 w16, (schedule abcBlock)[16 - 2]? = some w2 ∧ (schedule abcBlock)[16 - 7]? = some w7 ∧
      (schedule abcBlock)[16 - 15]? = some w15 ∧ (schedule abcBlock)[16 - 16]? = some w16) ∧
    (∃ w2 w7 w15 w16, (schedule abcBlock)[63 - 2]? = some w2 ∧ (schedule abcBlock)[63 - 7]? = some w7 ∧
      (schedule abcBlock)[63 - 15]? = some w15 ∧ (schedule abcBlock)[63 - 16]? = some w16) := by
  have h (k : Nat) (hk : k < 64) : ∃ w, (schedule abcBlock)[k]? = some w :=
    ⟨_, List.getElem?_eq_getElem (by rw [schedule_length]; exact hk)⟩
  obtain ⟨a, ha⟩ := h 14 (by decide)
  obtain ⟨b, hb⟩ := h 9 (by decide)
  obtain ⟨c, hc⟩ := h 1 (by decide)
  obtain ⟨d, hd⟩ := h 0 (by decide)
  obtain ⟨e, he⟩ := h 61 (by decide)
  obtain ⟨f, hf⟩ := h 56 (by decide)
  obtain ⟨g, hg⟩ := h 48 (by decide)
  obtain ⟨i, hi⟩ := h 47 (by decide)
  exact ⟨⟨a, b, c, d, ha, hb, hc, hd⟩, e, f, g, i, he, hf, hg, hi⟩

/-- In the first round and in the last. -/
theorem witness_CompressRunsSixtyFourRounds :
    (∃ k w, roundConstants[0]? = some k ∧ (schedule abcBlock)[0]? = some w) ∧
    (∃ k w, roundConstants[63]? = some k ∧ (schedule abcBlock)[63]? = some w) :=
  ⟨⟨_, _, rfl, List.getElem?_eq_getElem (by simp)⟩, _, _, rfl, List.getElem?_eq_getElem (by simp)⟩

/-- Steps of every kind: none offered, reset, `INIT`, a block completed, one block padded, and two. -/
theorem witness_AccumulatorChangesByCompressOnly :
    step fresh = .next fresh ∧
    (∃ t, step (withPin misused ⟨true, false, 0⟩) = .next t) ∧
    (∃ t, step (withPin finished (offer 0x0100)) = .next t) ∧
    (∃ t, step (withPin nearlyFull (offer 0x0261)) = .next t) ∧
    (∃ t, step (withPin fresh (offer 0x0300)) = .next t) ∧
    (∃ t, step (withPin (stateOf .absorbing 0 (bytes 56 0x61)) (offer 0x0300)) = .next t) := by
  obtain ⟨t, h1, _⟩ := nearlyFull_upd 0 0x61 (by decide)
  obtain ⟨u, h2, _⟩ := fresh_final
  obtain ⟨v, h3, _⟩ := two_block_final
  exact ⟨rfl, ⟨_, rfl⟩, ⟨_, rfl⟩, ⟨t, h1⟩, ⟨u, h2⟩, v, h3⟩

/-- One of each fault. -/
theorem witness_FaultEntryChangesFaultOnly :
    (finished.fault = .none ∧ acceptWord 0x0300 finished = .next misused ∧ misused.fault ≠ .none) ∧
    (fresh.fault = .none ∧ acceptWord 0x0000 fresh = .next (fresh.raise .illegalCommand) ∧
      (fresh.raise .illegalCommand).fault ≠ .none) ∧
    (ceiling.fault = .none ∧ acceptWord 0x02aa ceiling = .next (ceiling.raise .lengthOverflow) ∧
      (ceiling.raise .lengthOverflow).fault ≠ .none) :=
  ⟨⟨rfl, rfl, by decide⟩, ⟨rfl, rfl, by decide⟩, rfl, ceiling_overflows, by decide⟩

/-- One of each fault, and a word that raises none. -/
theorem witness_FaultCauses :
    (fresh.fault = .none ∧ acceptWord 0x0000 fresh = .next (fresh.raise .illegalCommand)) ∧
    (finished.fault = .none ∧ acceptWord 0x0300 finished = .next misused) ∧
    (ceiling.fault = .none ∧ acceptWord 0x02aa ceiling = .next (ceiling.raise .lengthOverflow)) ∧
    (∃ t, nearlyFull.fault = .none ∧ acceptWord 0x0261 nearlyFull = .next t ∧ t.fault = .none) := by
  obtain ⟨t, h⟩ := nearlyFull_upd 0 0x61 (by decide)
  exact ⟨⟨rfl, rfl⟩, ⟨rfl, rfl⟩, ⟨rfl, ceiling_overflows⟩, t, rfl, h⟩

theorem witness_CommandsAfterAFaultAreDiscarded : misused.fault ≠ .none := by decide

/-- A step without `rst`, and one with it. -/
theorem witness_OnlyResetClearsAFault :
    (misused.fault ≠ .none ∧ ∃ t, step (withPin misused (offer 0x0100)) = .next t ∧
      ∀ p rest, (withPin misused (offer 0x0100)).pins = p :: rest → p.rst = false) ∧
    (∃ t, step (withPin misused ⟨true, false, 0⟩) = .next t ∧
      (withPin misused ⟨true, false, 0⟩).pins = ⟨true, false, 0⟩ :: []) := by
  refine ⟨⟨by decide, _, rfl, fun p rest h => ?_⟩, _, rfl, rfl⟩
  obtain ⟨rfl, _⟩ := List.cons.inj h
  rfl

/-- The hypotheses of each clause: a row of the table of R19 for every phase. -/
theorem witness_PhaseTransitionTable :
    (finished.fault = .none ∧ ∃ t, exec .init finished = .next t) ∧
    (ceiling.fault = .none ∧ inMessage ceiling ∧ ∃ t, exec (.upd 0xaa) ceiling = .next t) ∧
    (nearlyFull.fault = .none ∧ inMessage nearlyFull ∧ ∃ t, exec (.upd 0xaa) nearlyFull = .next t) ∧
    (finished.phase = .finalized ∧ ∃ t, exec (.upd 0xaa) finished = .next t) ∧
    (inMessage fresh ∧ ∃ t, exec .final fresh = .next t) ∧
    (finished.phase = .finalized ∧ ∃ t, exec .final finished = .next t) ∧
    (Inv fresh ∧ fresh.phase = .initialized ∧ ∃ t, exec (.upd 0xaa) fresh = .next t) := by
  obtain ⟨t, h1, _⟩ := nearlyFull_upd 0 0xaa (by decide)
  obtain ⟨u, h2, _⟩ := fresh_final
  exact ⟨⟨rfl, _, rfl⟩, ⟨rfl, .inr rfl, _, execUpd_overflows _ rfl rfl (by decide)⟩, ⟨rfl, .inr rfl, t, h1⟩,
    ⟨rfl, _, rfl⟩, ⟨.inl rfl, u, h2⟩, ⟨rfl, _, rfl⟩, inv_fresh, rfl, _, rfl⟩

theorem witness_InitializedAndAbsorbingActAlike : Inv fresh ∧ fresh.fault = .none ∧ fresh.phase = .initialized :=
  ⟨inv_fresh, rfl, rfl⟩

theorem witness_DigestValidIsSuccess :
    (Inv finished ∧ finished.digestValid = true) ∧ misused.digestValid = false := ⟨⟨inv_finished, rfl⟩, rfl⟩

/-- States with `Inv` in every phase and with each kind of end, and a step from them. -/
theorem witness_StepKeepsTheInvariant :
    (Inv fresh ∧ ∃ t, step fresh = .next t) ∧ (Inv nearlyFull ∧ ∃ t, step nearlyFull = .next t) ∧
    (Inv finished ∧ ∃ t, step finished = .next t) ∧ (Inv misused ∧ ∃ t, step misused = .next t) ∧
    (Inv (ceiling.raise .lengthOverflow) ∧ ∃ t, step (ceiling.raise .lengthOverflow) = .next t) :=
  ⟨⟨inv_fresh, _, rfl⟩, ⟨inv_nearlyFull, _, rfl⟩, ⟨inv_finished, _, rfl⟩, ⟨inv_misused, _, rfl⟩, inv_overflowed, _, rfl⟩

theorem witness_StepAlwaysCompletes : Inv nearlyFull ∧ Inv ceiling := ⟨inv_nearlyFull, inv_ceiling⟩

/-- The empty message and the largest. -/
theorem witness_StateAfterAbsorbing :
    State.reset.fault = .none ∧ ([] : List Byte).length < 2 ^ 61 ∧ (bytes (2 ^ 61 - 1) 0x61).length < 2 ^ 61 := by
  refine ⟨rfl, by decide, ?_⟩
  rw [bytes, List.length_replicate]
  decide

/-- The empty message and the largest. -/
theorem witness_HashOneShotComputesTheDigest :
    State.reset.fault = .none ∧ ([] : List Byte).length < 2 ^ 61 ∧ (bytes (2 ^ 61 - 1) 0x61).length < 2 ^ 61 :=
  witness_StateAfterAbsorbing

theorem witness_LengthCeiling : State.reset.fault = .none ∧ (bytes (2 ^ 61 - 1) 0x61).length = 2 ^ 61 - 1 :=
  ⟨rfl, List.length_replicate⟩

theorem witness_UpdateIsTheSequenceOfUpd : misused.fault ≠ .none := by decide

theorem witness_OfferedScriptIsRunInOrder :
    { fresh with pins := (encodeScript [.upd 0x61, .final]).map offer ++ [] }.pins =
      (encodeScript [.upd 0x61, .final]).map offer ++ [] := rfl

/-- Two calls on one engine, the first of a rejected length. -/
def twoCalls : HostSystem where
  calls := [Call.start helpful ⟨0, 0, 0⟩ 0, Call.start helpful ⟨0, 1, 0⟩ 0]
  engines := [finished]

/-- R155: one call has the engine for step 4; another that comes to its own step 4 waits. -/
theorem test_call_waits_its_turn :
    let sys : HostSystem :=
      { calls := [{ Call.start helpful ⟨0, 1, 0⟩ 0 with stage := .hashing [.final] },
          { Call.start helpful ⟨0, 1, 0⟩ 0 with stage := .awaitEngine }],
        engines := [nearlyFull] }
    ((sys.stepCall params 1).calls.map fun c => c.stage) = [.hashing [.final], .awaitEngine] := by decide +kernel

/-- Instance 1 of two; and two calls just made on an unfaulted engine, of which the first has returned after one step. -/
theorem witness_InstancesDoNotInterfere :
    [fresh, finished][1]? = some finished ∧ params.wf ∧
    (∀ c ∈ twoCalls.calls, c = Call.start c.collaborators c.request c.engine) ∧
    (∀ e ∈ twoCalls.engines, e.fault = .none) ∧
    (∃ c d, twoCalls.calls[0]? = some c ∧ (twoCalls.run params [0]).calls[0]? = some d ∧ d.stage = .done (-1)) ∧
    (∃ c, twoCalls.calls[1]? = some c ∧ c.engine < twoCalls.engines.length) := by
  refine ⟨rfl, params_wf, ?_, ?_, ⟨_, _, rfl, rfl, rfl⟩, _, rfl, by decide⟩
  · intro c hc
    rcases List.mem_cons.mp hc with rfl | hc
    · rfl
    · rw [List.mem_singleton.mp hc]
      rfl
  · intro e he
    rw [List.mem_singleton.mp he]
    rfl

theorem witness_HexTextOfADigest :
    ((9#4).toNat ≤ 9 ∧ 10 ≤ (10#4).toNat) ∧ [0xa5#8][0]? = some 0xa5#8 ∧ hexText [0xa5] = hexText [0xa5] := by
  decide

theorem witness_SelfTestPasses : State.reset.fault = .none := rfl

theorem witness_ScriptLinesAreRead : 0 < 256 ∧ 255 < 256 := by decide

/-- One below the range and one above it. -/
theorem witness_HostRejectsLengthsOutOfRange :
    ((⟨0, 0, 0⟩ : Request).sourceLength ≤ 0) ∧ ((params.maxInputSize : Int) + 1 ≤ (⟨0, 1025, 0⟩ : Request).sourceLength) := by
  decide

/-- The shortest request and the longest. -/
theorem witness_HostDeliversTheDigest :
    params.wf ∧ State.reset.fault = .none ∧ helpful.acquireInput = true ∧ helpful.acquireOutput = true ∧
    (∀ bs, helpful.copyToCaller 0 bs = true) ∧
    ∀ n : Int, n = 1 ∨ n = 1024 → 1 ≤ n ∧ n ≤ params.maxInputSize ∧ helpful.copyFromCaller 0 n.toNat = true := by
  refine ⟨params_wf, rfl, rfl, rfl, fun _ => rfl, ?_⟩
  exact fun n hn => ⟨by omega, show n ≤ (1024 : Nat) by omega, rfl⟩

/-- A rejected length, an engine that faults in step 4, and a digest (V30, V60: one byte `0x61`). -/
theorem witness_HostReleasesAndReports :
    (params.wf ∧ serve params helpful ⟨0, 0, 0⟩ State.reset = .next ⟨-1, State.reset, []⟩) ∧
    (helpful.copiesIn ⟨0, 1, 0⟩ = true ∧ (fresh.raise .illegalCommand).fault ≠ .none ∧
      hash1 (helpful.source ⟨0, 1, 0⟩) (fresh.raise .illegalCommand) = .next (fresh.raise .illegalCommand) ∧
      onNext (serve params helpful ⟨0, 1, 0⟩ (fresh.raise .illegalCommand)) (fun r =>
        r == ⟨params.engineFault, fresh.raise .illegalCommand, acquireBoth ++ releaseBoth⟩) = true) ∧
    onNext (serve params helpful ⟨0, 1, 0⟩ State.reset) (fun r => r.status == 0 && r.events.any (fun e =>
      e == .copiedOut 0
        [0xca, 0x97, 0x81, 0x12, 0xca, 0x1b, 0xbd, 0xca, 0xfa, 0xc2, 0x31, 0xb3, 0x9a, 0x23, 0xdc, 0x4d,
         0xa7, 0x86, 0xef, 0xf8, 0x14, 0x7c, 0x4e, 0x72, 0xb9, 0x80, 0x77, 0x85, 0xaf, 0xee, 0x48, 0xbb])) = true :=
  ⟨⟨params_wf, rfl⟩, ⟨rfl, by decide, rfl, by decide +kernel⟩, by decide +kernel⟩

end Sys2Proof.Tests
end

section
/-! Proofs about the state of spec 10_state.md: the status port (R21) and the two halves of `TBL` (R16). -/

namespace Sys2Proof.Machine

/-! ### The two halves of `TBL` -/

theorem tblHi_toNat (s : State) : s.tblHi.toNat = s.tbl.toNat / 2 ^ 32 := by
  simp only [State.tblHi, BitVec.extractLsb'_toNat, Nat.shiftRight_eq_div_pow]
  omega

theorem tblLo_toNat (s : State) : s.tblLo.toNat = s.tbl.toNat % 2 ^ 32 := by
  simp only [State.tblLo, BitVec.extractLsb'_toNat, Nat.shiftRight_zero]

theorem tbl_eq_tblHi_append_tblLo (s : State) : s.tbl = s.tblHi ++ s.tblLo := by
  have hall : s.tblHi ++ s.tblLo = s.tbl.extractLsb' 0 64 :=
    BitVec.extractLsb'_append_extractLsb'_eq_extractLsb' (by decide)
  rw [hall, BitVec.extractLsb'_eq_self]

/-- Whatever carries out of `TBL_LO` is lost to `TBL_LO` itself (R16). -/
theorem tblLo_of_tbl_add_512 {s t : State} (h : t.tbl = s.tbl + 512) : t.tblLo = s.tblLo + 512 := by
  apply BitVec.eq_of_toNat_eq
  rw [BitVec.toNat_add, tblLo_toNat, tblLo_toNat, h, BitVec.toNat_add]
  bv_omega

/-- `TBL_HI` takes the carry out of `TBL_LO`: 512 reaches no bit of `TBL_HI` by itself (R16). -/
theorem tblHi_of_tbl_add_512 {s t : State} (h : t.tbl = s.tbl + 512) :
    t.tblHi = s.tblHi + (if 2 ^ 32 ≤ s.tblLo.toNat + 512 then 1 else 0) := by
  have hlt : s.tbl.toNat < 2 ^ 64 := s.tbl.isLt
  apply BitVec.eq_of_toNat_eq
  rw [BitVec.toNat_add, tblHi_toNat, tblHi_toNat, tblLo_toNat, h, BitVec.toNat_add]
  split
  · bv_omega
  · bv_omega

theorem tblHalves_of_tbl_eq_ceiling {s : State} (h : s.tbl = tblCeiling) :
    s.tblHi = 0xffffffff ∧ s.tblLo = 0xfffffe00 := by
  unfold State.tblHi State.tblLo
  rw [h]
  decide

/-! ### What `UPD` does to `TBL` and to `FAULT` -/

/-- Absorbing a byte raises no fault: the checks of R85 come before it. -/
theorem absorbByte_fault {b : Byte} {s t : State} (h : absorbByte b s = .next t) : t.fault = s.fault := by
  obtain ⟨-, rfl⟩ | ⟨-, _, -, rfl⟩ := absorbByte_cases h
  · rfl
  · rfl

/-- The 64th byte advances `TBL` by one block (R87). -/
theorem absorbByte_tbl_of_full {b : Byte} {s t : State} (hpl : s.pl = 63) (h : absorbByte b s = .next t) :
    t.tbl = s.tbl + 512 := by
  obtain ⟨hlt, -⟩ | ⟨-, _, -, rfl⟩ := absorbByte_cases h
  · rw [hpl] at hlt
    exact absurd hlt (by decide)
  · rfl

/-- A `UPD` that ends without a fault has absorbed its byte. -/
theorem absorbs_of_execUpd_fault_none {b : Byte} {s t : State} (h : execUpd b s = .next t)
    (ht : t.fault = .none) : absorbByte b s = .next t := by
  obtain ⟨hs, rfl⟩ | ⟨-, -, rfl⟩ | ⟨-, -, -, rfl⟩ | ⟨-, -, -, habs⟩ := execUpd_cases h
  · exact absurd ht hs
  · cases ht
  · cases ht
  · exact habs

/-- Only the check of R88 raises `LengthOverflow`. -/
theorem atCeiling_of_execUpd_fault_lengthOverflow {b : Byte} {s t : State} (hs : s.fault = .none)
    (h : execUpd b s = .next t) (ht : t.fault = .lengthOverflow) : s.atCeiling = true := by
  obtain ⟨hne, -⟩ | ⟨-, -, rfl⟩ | ⟨-, -, hc, -⟩ | ⟨-, -, -, habs⟩ := execUpd_cases h
  · exact absurd hs hne
  · cases ht
  · exact hc
  · rw [absorbByte_fault habs, hs] at ht
    cases ht

/-- Settles O17: the carry is arithmetic on the two halves, and an overflow is raised by the check on all of `TBL`
alone. -/
theorem totalLengthCarriesBetweenHalves : Obligations.TotalLengthCarriesBetweenHalves := by
  refine ⟨tbl_eq_tblHi_append_tblLo, ?_, ?_⟩
  · intro b s t _ _ hpl h ht
    have htbl : t.tbl = s.tbl + 512 := absorbByte_tbl_of_full hpl (absorbs_of_execUpd_fault_none h ht)
    exact ⟨tblLo_of_tbl_add_512 htbl, tblHi_of_tbl_add_512 htbl⟩
  · intro b s t hs h ht
    have hc : s.pl = 63 ∧ s.tbl = tblCeiling :=
      (atCeiling_iff s).mp (atCeiling_of_execUpd_fault_lengthOverflow hs h ht)
    exact tblHalves_of_tbl_eq_ceiling hc.2

/-! ### The status port -/

theorem status_layout (s : State) :
    s.status.extractLsb' 0 2 = s.phase.code ∧ s.status.extractLsb' 2 2 = s.fault.code ∧
      s.status.extractLsb' 4 4 = 0 := by
  unfold State.status
  generalize s.phase.code = p
  generalize s.fault.code = f
  revert p f
  decide

/-- Settles O43: the layout holds of any two codes, and the codes are the definition's own. -/
theorem statusPortLayout : Obligations.StatusPortLayout :=
  ⟨status_layout, rfl, rfl, rfl, rfl, rfl, rfl, rfl, rfl⟩

end Sys2Proof.Machine
end

section
/-! Proofs about the byte spaces of spec 20_memory.md: `DG` as `FINAL` writes it (R43) and the words of a block (R41). -/

namespace Sys2Proof.Machine

/-! ### `DG` after `FINAL` -/

/-- Byte `j` of word `i` in a digest register just written (R43). -/
theorem emitDigest_read_wordByte (h : Vector Word 8) (i : Fin 8) {j : Nat} (hj : j < 4) :
    (emitDigest h).read (4 * i.val + j) = some (h[i].extractLsb' (24 - 8 * j) 8) := by
  have hx : 4 * i.val + j < 32 := by omega
  have hword : (4 * i.val + j) / 4 = i.val := by omega
  have hbyte : 8 * (3 - (4 * i.val + j) % 4) = 24 - 8 * j := by omega
  have hget : h.toList[i.val]? = some h[i] := by simp
  rw [emitDigest_read, if_pos hx, hword, hbyte, hget, Option.map_some]

/-- `DG` has 32 bytes (R40): a digest register just written holds nothing above them. -/
theorem emitDigest_read_of_ge (h : Vector Word 8) {a : Nat} (ha : 32 ≤ a) : (emitDigest h).read a = none := by
  rw [emitDigest_read, if_neg (Nat.not_lt.mpr ha)]

/-- A `FINAL` that ends without a fault has finished its message: its checks let it pass (R95). -/
theorem finishes_of_execFinal_fault_none {s t : State} (h : execFinal s = .next t) (ht : t.fault = .none) :
    ∃ h', t = finishMessage s h' := by
  obtain ⟨hs, rfl⟩ | ⟨-, -, rfl⟩ | ⟨-, -, _, -, rfl⟩ := execFinal_cases h
  · exact absurd ht hs
  · cases ht
  · exact ⟨_, rfl⟩

/-- Such a `FINAL` leaves in `DG` the very accumulator it leaves in `H` (R101). -/
theorem dg_of_execFinal_fault_none {s t : State} (h : execFinal s = .next t) (ht : t.fault = .none) :
    t.dg = emitDigest t.h := by
  obtain ⟨h', rfl⟩ := finishes_of_execFinal_fault_none h ht
  rw [finishMessage_dg, finishMessage_h]

/-- Settles O23: `DG` is the emitted accumulator, read byte by byte. -/
theorem finalEmitsTheDigest : Obligations.FinalEmitsTheDigest := by
  intro s t _ h ht
  rw [dg_of_execFinal_fault_none h ht]
  exact ⟨fun i _ hj => emitDigest_read_wordByte t.h i hj, fun _ ha => emitDigest_read_of_ge t.h ha⟩

/-! ### `MemRead` -/

/-- Bytes that stand in the space one after another are read as they stand. -/
theorem Memory.readBytes_eq_some {m : Memory} {a : Nat} {bs : List Byte}
    (h : ∀ k < bs.length, m.read (a + k) = bs[k]?) : m.readBytes a bs.length = some bs := by
  induction bs generalizing a with
  | nil => rfl
  | cons b bs ih =>
    have hhead : m.read a = some b := h 0 (Nat.zero_lt_succ _)
    have htail : m.readBytes (a + 1) bs.length = some bs := by
      refine ih fun k hk => ?_
      rw [Nat.add_assoc, Nat.add_comm 1 k, h (k + 1) (Nat.succ_lt_succ hk), List.getElem?_cons_succ]
    rw [List.length_cons, Memory.readBytes, hhead, htail]

/-- A byte appended below a bit vector: one step of a big-endian value. -/
theorem toNat_append_byte {n : Nat} (x : BitVec n) (b : Byte) : (x ++ b).toNat = x.toNat * 256 + b.toNat := by
  rw [BitVec.toNat_append, ← Nat.shiftLeft_add_eq_or_of_lt b.isLt, Nat.shiftLeft_eq]

/-- Four bytes' big-endian value is the word in which they stand one after another. -/
theorem bytesValue_four (b0 b1 b2 b3 : Byte) : bytesValue [b0, b1, b2, b3] = (b0 ++ b1 ++ b2 ++ b3).toNat := by
  simp [bytesValue, toNat_append_byte]

/-! ### The words of a block -/

/-- A word of a block, as the sum R41 writes. -/
theorem blockWord_toNat (blk : Block) (i : Fin 16) :
    (blockWord blk i).toNat =
      blk[4 * i.val].toNat * 2 ^ 24 + blk[4 * i.val + 1].toNat * 2 ^ 16 + blk[4 * i.val + 2].toNat * 2 ^ 8
        + blk[4 * i.val + 3].toNat := by
  simp only [blockWord, toNat_append_byte]
  omega

/-- The bytes of word `i` in the space that holds the block. -/
theorem Memory.readBytes_block {m : Memory} {blk : Block} (h : m.block? = some blk) (i : Fin 16) :
    m.readBytes (4 * i.val) 4 =
      some [blk[4 * i.val], blk[4 * i.val + 1], blk[4 * i.val + 2], blk[4 * i.val + 3]] := by
  have hread (k : Nat) (hk : k < 64) : m.read k = some blk[k] := (m.block?_eq_some blk).mp h ⟨k, hk⟩
  refine Memory.readBytes_eq_some (bs := [_, _, _, _]) fun k hk => ?_
  match k, hk with
  | 0, _ => exact hread _ _
  | 1, _ => exact hread _ _
  | 2, _ => exact hread _ _
  | 3, _ => exact hread _ _

/-- `MemRead(BLK, 4i, 4)` is word `i` of the block. -/
theorem Memory.readBE_block {m : Memory} {blk : Block} (h : m.block? = some blk) (i : Fin 16) :
    m.readBE (4 * i.val) 4 = some (blockWord blk i) := by
  rw [Memory.readBE, Memory.readBytes_block h, Option.map_some, bytesValue_four]
  exact congrArg some ((BitVec.ofNat_toNat _ _).trans (BitVec.setWidth_eq _))

/-- The schedule begins with the block's own words (R123). -/
theorem schedule_getElem?_block (blk : Block) (i : Fin 16) : (schedule blk)[i.val]? = some (blockWord blk i) := by
  rw [schedule, extendSchedule_getElem? _ _ _ (by simp), List.getElem?_ofFn, dif_pos i.isLt]

/-- Settles O33: the word common to the schedule and to `MemRead` is `blockWord`. -/
theorem blockWordsAreBigEndian : Obligations.BlockWordsAreBigEndian := by
  intro m blk h
  refine ⟨fun hin => compress_eq hin blk, fun i => ⟨blockWord blk i, ?_, ?_, ?_⟩⟩
  · exact schedule_getElem?_block blk i
  · exact Memory.readBE_block h i
  · exact blockWord_toNat blk i

end Sys2Proof.Machine
end

section
/-! Proofs about the encoding of spec 30_encoding.md: which words are commands (R61, R62), which are illegal (R65), and
what an illegal word does (R164). -/

namespace Sys2Proof

/-! ### A word and its two fields (R60) -/

@[simp] theorem joinWord_splitWord (w : CmdWord) : joinWord (splitWord w) = w := by
  have hall : w.extractLsb' 8 8 ++ w.extractLsb' 0 8 = w.extractLsb' 0 16 :=
    BitVec.extractLsb'_append_extractLsb'_eq_extractLsb' (by decide)
  exact hall.trans BitVec.extractLsb'_eq_self

@[simp] theorem splitWord_joinWord (c : C16) : splitWord (joinWord c) = c := by
  simp only [splitWord, joinWord, BitVec.extractLsb'_append_eq_left, BitVec.extractLsb'_append_eq_right]

/-- A word is determined by its two fields. -/
theorem eq_joinWord_iff (w : CmdWord) (c : C16) : w = joinWord c ↔ splitWord w = c := by
  constructor
  · rintro rfl
    exact splitWord_joinWord c
  · rintro rfl
    exact (joinWord_splitWord w).symm

theorem splitWord_eq_iff (w : CmdWord) (op imm : Byte) :
    splitWord w = ⟨op, imm⟩ ↔ w.extractLsb' 8 8 = op ∧ w.extractLsb' 0 8 = imm :=
  C16.mk.injEq .. ▸ Iff.rfl

theorem splitWord_op_toNat (w : CmdWord) : (splitWord w).op.toNat = w.toNat / 256 := by
  have hlt : w.toNat < 2 ^ 16 := w.isLt
  simp only [splitWord, BitVec.extractLsb'_toNat, Nat.shiftRight_eq_div_pow]
  omega

theorem splitWord_imm8_toNat (w : CmdWord) : (splitWord w).imm8.toNat = w.toNat % 256 := by
  simp only [splitWord, BitVec.extractLsb'_toNat, Nat.shiftRight_zero, Nat.reducePow]

/-! ### The words of the commands (R62, R64) -/

theorem encode_upd (b : Byte) : encode (.upd b) = joinWord ⟨0x02, b⟩ := rfl

/-- The byte of `UPD` reaches no bit of its operation code. -/
theorem encode_upd_eq_add (b : Byte) : encode (.upd b) = 0x0200 + b.setWidth 16 := by
  refine (BitVec.add_eq_or_of_and_eq_zero _ _ ?_).symm
  revert b
  decide

/-! ### `decode` inverts `encode` (R70) -/

/-- What `decode` answers, test by test. -/
theorem decode_cases (w : CmdWord) :
    (w = 0x0100 ∧ decode w = .instr .init) ∨
    ((splitWord w).op = 0x02 ∧ decode w = .instr (.upd (splitWord w).imm8)) ∨
    (w = 0x0300 ∧ decode w = .instr .final) ∨
    (w ≠ 0x0100 ∧ (splitWord w).op ≠ 0x02 ∧ w ≠ 0x0300 ∧ decode w = .illegal (illegalClass w)) := by
  unfold decode
  split
  · exact .inl ⟨‹_›, rfl⟩
  · split
    · exact .inr (.inl ⟨‹_›, rfl⟩)
    · split
      · exact .inr (.inr (.inl ⟨‹_›, rfl⟩))
      · exact .inr (.inr (.inr ⟨‹_›, ‹_›, ‹_›, rfl⟩))

theorem decode_encode (i : Instr) : decode (encode i) = .instr i := by
  cases i with
  | init => rfl
  | upd b =>
    have hop : (splitWord (joinWord ⟨0x02, b⟩)).op = 0x02 := by rw [splitWord_joinWord]
    have hne : joinWord ⟨0x02, b⟩ ≠ 0x0100 := fun h => by
      rw [h] at hop
      exact absurd hop (by decide)
    rw [encode_upd, decode, if_neg hne, if_pos hop, splitWord_joinWord]
  | final => rfl

theorem encode_of_decode {w : CmdWord} {i : Instr} (h : decode w = .instr i) : encode i = w := by
  obtain ⟨hw, hd⟩ | ⟨hop, hd⟩ | ⟨hw, hd⟩ | ⟨-, -, -, hd⟩ := decode_cases w
  · obtain rfl : Instr.init = i := Decoded.instr.inj (hd.symm.trans h)
    exact hw.symm
  · obtain rfl : Instr.upd _ = i := Decoded.instr.inj (hd.symm.trans h)
    rw [encode_upd, ← hop]
    exact joinWord_splitWord w
  · obtain rfl : Instr.final = i := Decoded.instr.inj (hd.symm.trans h)
    exact hw.symm
  · cases hd.symm.trans h

/-- A word is a command exactly where it is that command's own word: no bit of it is dropped. -/
theorem decode_eq_instr_iff (w : CmdWord) (i : Instr) : decode w = .instr i ↔ w = encode i := by
  constructor
  · exact fun h => (encode_of_decode h).symm
  · rintro rfl
    exact decode_encode i

/-! ### The rows of the opcode map (R61) -/

theorem and_fullMask (w : CmdWord) : w &&& 0xFFFF = w := BitVec.and_allOnes

/-- The mask of `UPD` keeps the operation code and clears the immediate byte. -/
theorem and_opMask (w : CmdWord) : w &&& 0xFF00 = joinWord ⟨(splitWord w).op, 0x00⟩ := by
  have hmask : (0xFF00 : CmdWord) = BitVec.allOnes 8 ++ 0#8 := by decide
  calc w &&& 0xFF00
      = ((splitWord w).op ++ (splitWord w).imm8) &&& (BitVec.allOnes 8 ++ 0#8) := by
        rw [hmask]
        exact congrArg (· &&& _) (joinWord_splitWord w).symm
    _ = joinWord ⟨(splitWord w).op, 0x00⟩ := by
        rw [BitVec.and_append, BitVec.and_allOnes, BitVec.and_zero]
        rfl

theorem matches_upd_iff (w : CmdWord) : w &&& 0xFF00 = 0x0200 ↔ (splitWord w).op = 0x02 := by
  have hmatch : (0x0200 : CmdWord) = joinWord ⟨0x02, 0x00⟩ := by decide
  rw [and_opMask, hmatch, eq_joinWord_iff, splitWord_joinWord, C16.mk.injEq]
  exact and_iff_left rfl

theorem decode_eq_init_iff (w : CmdWord) : decode w = .instr .init ↔ w &&& 0xFFFF = 0x0100 := by
  rw [decode_eq_instr_iff, and_fullMask, encode]

theorem decode_eq_upd_iff (w : CmdWord) (b : Byte) :
    decode w = .instr (.upd b) ↔ w &&& 0xFF00 = 0x0200 ∧ b = w.extractLsb' 0 8 := by
  rw [decode_eq_instr_iff, encode_upd, eq_joinWord_iff, matches_upd_iff, splitWord_eq_iff, eq_comm (a := b)]
  rfl

theorem decode_eq_final_iff (w : CmdWord) : decode w = .instr .final ↔ w &&& 0xFFFF = 0x0300 := by
  rw [decode_eq_instr_iff, and_fullMask, encode]

/-- Settles O3: a word has one decoding, so no word matches two rows. -/
theorem decodeFollowsTheOpcodeMap : Obligations.DecodeFollowsTheOpcodeMap := by
  intro w
  refine ⟨decode_eq_init_iff w, decode_eq_upd_iff w, decode_eq_final_iff w, ?_, ?_, ?_, ?_⟩
  · rintro ⟨hinit, hupd⟩
    cases ((decode_eq_init_iff w).mpr hinit).symm.trans ((decode_eq_upd_iff w _).mpr ⟨hupd, rfl⟩)
  · rintro ⟨hinit, hfinal⟩
    cases ((decode_eq_init_iff w).mpr hinit).symm.trans ((decode_eq_final_iff w).mpr hfinal)
  · rintro ⟨hupd, hfinal⟩
    cases ((decode_eq_upd_iff w _).mpr ⟨hupd, rfl⟩).symm.trans ((decode_eq_final_iff w).mpr hfinal)
  · intro i _
    cases i with
    | init => exact .inl rfl
    | upd b => exact .inr (.inl ⟨b, rfl⟩)
    | final => exact .inr (.inr rfl)

/-- Settles O1: each word decodes as the word `encode` gives. -/
theorem wordsOfTheCommands : Obligations.WordsOfTheCommands :=
  ⟨rfl, encode_upd_eq_add, rfl, decode_encode .init, decode_encode (.upd 0x61), decode_encode (.upd 0x00),
    decode_encode (.upd 0xFF), decode_encode .final⟩

/-! ### The illegal words (R65) -/

/-- The three ways to pass the check of R65. -/
theorem C16.wf_iff (c : C16) : c.wf = true ↔ c = ⟨0x01, 0x00⟩ ∨ c.op = 0x02 ∨ c = ⟨0x03, 0x00⟩ := by
  obtain ⟨op, imm⟩ := c
  simp [C16.wf, or_assoc]

/-- The ways to fail it: an operation code is one of the four lowest, or is `0x04` or above. -/
theorem C16.wf_eq_false_iff (c : C16) :
    c.wf = false ↔ c.op = 0x00#8 ∨ 0x04#8 ≤ c.op ∨ ((c.op = 0x01#8 ∨ c.op = 0x03#8) ∧ c.imm8 ≠ 0x00#8) := by
  rw [← Bool.not_eq_true, C16.wf_iff]
  obtain ⟨op, imm⟩ := c
  simp only [C16.mk.injEq]
  bv_omega

theorem wf_splitWord_encode (i : Instr) : (splitWord (encode i)).wf = true := by
  cases i with
  | init => exact Laws.EncodedInRow.init.2
  | upd b => exact (Laws.EncodedInRow.upd b).2
  | final => exact Laws.EncodedInRow.final.2

/-- The words whose fields pass the check are the commands' own. -/
theorem wf_splitWord_iff (w : CmdWord) : (splitWord w).wf = true ↔ ∃ i, decode w = .instr i := by
  constructor
  · intro h
    obtain h | h | h := (C16.wf_iff _).mp h
    · exact ⟨.init, (decode_eq_instr_iff w _).mpr ((eq_joinWord_iff w _).mpr h)⟩
    · exact ⟨_, (decode_eq_upd_iff w _).mpr ⟨(matches_upd_iff w).mpr h, rfl⟩⟩
    · exact ⟨.final, (decode_eq_instr_iff w _).mpr ((eq_joinWord_iff w _).mpr h)⟩
  · rintro ⟨i, h⟩
    rw [← encode_of_decode h]
    exact wf_splitWord_encode i

theorem Decoded.instr?_eq_none_iff (d : Decoded) : d.instr? = none ↔ ¬ ∃ i, d = .instr i := by
  cases d with
  | instr i => simp [Decoded.instr?]
  | illegal why => simp [Decoded.instr?]

theorem exists_illegal_of_instr?_eq_none {d : Decoded} (h : d.instr? = none) : ∃ why, d = .illegal why := by
  cases d with
  | instr i => cases h
  | illegal why => exact ⟨why, rfl⟩

/-- A word is no command exactly where its fields fail the check of R65. -/
theorem decode_instr?_eq_none_iff (w : CmdWord) : (decode w).instr? = none ↔ (splitWord w).wf = false := by
  rw [Decoded.instr?_eq_none_iff, ← wf_splitWord_iff, Bool.not_eq_true]

/-! ### How many words are illegal (R65) -/

/-- The numbers of the legal words: `INIT`'s, and those of `UPD` with `FINAL`'s just above them. -/
def legalNumbers : Finset Nat := insert 0x0100 (Finset.Icc 0x0200 0x0300)

theorem mem_legalNumbers_iff (n : Nat) : n ∈ legalNumbers ↔ n = 0x0100 ∨ 0x0200 ≤ n ∧ n ≤ 0x0300 := by
  simp only [legalNumbers, Finset.mem_insert, Finset.mem_Icc]

theorem decode_ofNat_instr?_eq_none_iff {n : Nat} (hn : n < 65536) :
    (decode (BitVec.ofNat 16 n)).instr? = none ↔ n ∉ legalNumbers := by
  have hw : (BitVec.ofNat 16 n).toNat = n := (BitVec.toNat_ofNat n 16).trans (Nat.mod_eq_of_lt hn)
  have hop := splitWord_op_toNat (BitVec.ofNat 16 n)
  have himm := splitWord_imm8_toNat (BitVec.ofNat 16 n)
  rw [hw] at hop himm
  rw [decode_instr?_eq_none_iff, C16.wf_eq_false_iff, mem_legalNumbers_iff]
  bv_omega

theorem illegalNumbers_eq :
    ((List.range 65536).filter fun n => ((decode (BitVec.ofNat 16 n)).instr?).isNone).toFinset =
      Finset.range 65536 \ legalNumbers := by
  ext n
  rw [List.mem_toFinset, List.mem_filter, List.mem_range, Option.isNone_iff_eq_none, Finset.mem_sdiff, Finset.mem_range]
  exact and_congr_right decode_ofNat_instr?_eq_none_iff

/-- All 65536 words but the 258 legal ones. -/
theorem illegalNumbers_length :
    ((List.range 65536).filter fun n => ((decode (BitVec.ofNat 16 n)).instr?).isNone).length = 65278 := by
  have hsub : legalNumbers ⊆ Finset.range 65536 := by
    intro n hn
    rw [mem_legalNumbers_iff] at hn
    rw [Finset.mem_range]
    omega
  have hcard : legalNumbers.card = 258 := by
    rw [legalNumbers, Finset.card_insert_of_notMem (by simp), Nat.card_Icc]
  rw [← List.toFinset_card_of_nodup (List.nodup_range.filter _), illegalNumbers_eq, Finset.card_sdiff_of_subset hsub,
    Finset.card_range, hcard]

end Sys2Proof

namespace Sys2Proof.Machine

/-! ### What an accepted illegal word does (R164) -/

theorem acceptWord_illegal {w : CmdWord} {s : State} (hw : (decode w).instr? = none) (hs : s.fault = .none) :
    acceptWord w s = .next (s.raise .illegalCommand) := by
  obtain ⟨why, hwhy⟩ := exists_illegal_of_instr?_eq_none hw
  rw [acceptWord, hwhy]
  exact unlessFaulted_clear _ hs

/-- Settles O4: the illegal words are those whose fields fail the check, and an accepted one raises the fault. -/
theorem illegalWordsRaiseIllegalCommand : Obligations.IllegalWordsRaiseIllegalCommand :=
  ⟨fun w => (decode_instr?_eq_none_iff w).trans (C16.wf_eq_false_iff _), illegalNumbers_length, rfl,
    fun _ _ => acceptWord_illegal⟩

end Sys2Proof.Machine
end

section
/-! Proofs about `UPD` of spec 41_update.md: its phase check and the phase it sets (R89). -/

namespace Sys2Proof.Machine

/-- Absorbing a byte sets `PHASE`, whether or not the byte completes a block (R85, R89). -/
theorem absorbByte_phase {b : Byte} {s t : State} (h : absorbByte b s = .next t) : t.phase = .absorbing := by
  obtain ⟨-, rfl⟩ | ⟨-, _, -, rfl⟩ := absorbByte_cases h
  · rfl
  · rfl

/-- A `UPD` in a phase that takes no data raises the fault and stops there (R89). -/
theorem execUpd_invalidState {s : State} (b : Byte) (h1 : s.fault = .none) (h2 : s.phase.takesData = false) :
    execUpd b s = .next (s.raise .invalidStateError) := by
  rw [execUpd, unlessFaulted_clear _ h1, requireMessage_fail _ h2]

/-- Settles O16: the two wrong phases are those that take no data, and a `UPD` without a fault has absorbed its byte. -/
theorem updPhaseCheck : Obligations.UpdPhaseCheck := by
  refine ⟨?_, ?_⟩
  · intro b s hs hp
    exact execUpd_invalidState b hs ((takesData_false_iff s.phase).mpr hp)
  · intro b s t _ h ht
    exact absorbByte_phase (absorbs_of_execUpd_fault_none h ht)

end Sys2Proof.Machine
end

section
/-! Proofs about `FINAL` of spec 42_finalize.md: its phase check (R103). -/

namespace Sys2Proof.Machine

/-- A `FINAL` in a phase that takes no data raises the fault and stops there (R103). -/
theorem execFinal_invalidState {s : State} (h1 : s.fault = .none) (h2 : s.phase.takesData = false) :
    execFinal s = .next (s.raise .invalidStateError) := by
  rw [execFinal, unlessFaulted_clear _ h1, requireMessage_fail _ h2]

/-- The digest counts as valid only while no fault stands. -/
theorem digestValid_eq_false_of_fault {s : State} (h : s.fault ≠ .none) : s.digestValid = false := by
  simp [State.digestValid, h]

/-- A `FINAL` in a phase that takes data raises no fault: past the phase check it can only finish the message. -/
theorem execFinal_fault_none {s t : State} (h1 : s.fault = .none) (h2 : s.phase.takesData = true)
    (h : execFinal s = .next t) : t.fault = .none := by
  rw [execFinal_finishes h1 h2] at h
  obtain ⟨_, -, rfl⟩ := finishBlocks_cases h
  rw [finishMessage_fault, h1]

/-- Settles O25: the two wrong phases are those that take no data, and the raised state differs from the old one in
`FAULT` alone. -/
theorem finalPhaseCheck : Obligations.FinalPhaseCheck := by
  refine ⟨?_, ?_, ?_⟩
  · intro s hs hp
    exact execFinal_invalidState hs ((takesData_false_iff s.phase).mpr hp)
  · intro s hs hp
    have hraise : execFinal s = .next (s.raise .invalidStateError) :=
      execFinal_invalidState hs ((takesData_false_iff s.phase).mpr (.inr hp))
    have hfault : (s.raise .invalidStateError).fault ≠ .none := by simp
    exact ⟨_, hraise, raise_dg .., raise_h .., digestValid_eq_false_of_fault hfault⟩
  · intro s t hs hm h
    exact execFinal_fault_none hs ((takesData_iff s.phase).mpr hm) h

end Sys2Proof.Machine
end

section
/-! Proofs about the message schedule of spec 43_compress.md: the words after the block's own (R124). -/

namespace Sys2Proof.Machine

/-- The schedule grows at its end only. -/
theorem prefix_extendSchedule (n : Nat) (w : List Word) : w <+: extendSchedule n w := by
  induction n generalizing w with
  | zero => exact List.prefix_rfl
  | succ n ih => exact (List.prefix_append w [nextScheduleWord w]).trans (ih _)

/-- Every added word is the next word after all the words before it. -/
theorem extendSchedule_getElem?_of_le {n t : Nat} {w : List Word} (hw : w.length ≤ t) (ht : t < w.length + n) :
    (extendSchedule n w)[t]? = some (nextScheduleWord ((extendSchedule n w).take t)) := by
  induction n generalizing w with
  | zero => omega
  | succ n ih =>
    rw [extendSchedule]
    obtain rfl | hlt := hw.eq_or_lt
    · have hpre : w <+: extendSchedule n (w ++ [nextScheduleWord w]) :=
        (List.prefix_append ..).trans (prefix_extendSchedule ..)
      rw [← List.prefix_iff_eq_take.mp hpre, extendSchedule_getElem? _ _ _ (by simp), List.getElem?_concat_length]
    · exact ih (by simp; omega) (by simp; omega)

/-- A schedule word past the block's own is the next word after those before it (R124). -/
theorem schedule_getElem?_next (blk : Block) {t : Nat} (h16 : 16 ≤ t) (h64 : t < 64) :
    (schedule blk)[t]? = some (nextScheduleWord ((schedule blk).take t)) :=
  extendSchedule_getElem?_of_le (by simpa using h16) (by simpa using h64)

/-- The next word after the first `t` of `l`, where the four words it reads are there. -/
theorem nextScheduleWord_take {l : List Word} {t : Nat} {w2 w7 w15 w16 : Word} (h16 : 16 ≤ t) (hl : t ≤ l.length)
    (h2 : l[t - 2]? = some w2) (h7 : l[t - 7]? = some w7) (h15 : l[t - 15]? = some w15)
    (hw16 : l[t - 16]? = some w16) :
    nextScheduleWord (l.take t) = smallSigma1 w2 + w7 + smallSigma0 w15 + w16 := by
  have hget (k : Nat) (hk : 0 < k) : (l.take t)[t - k]? = l[t - k]? := List.getElem?_take_of_lt (by omega)
  simp only [nextScheduleWord, List.length_take_of_le hl, List.getD_eq_getElem?_getD]
  rw [hget 2 (by decide), hget 7 (by decide), hget 15 (by decide), hget 16 (by decide), h2, h7, h15, hw16]
  rfl

/-- Settles O34: each word past the sixteenth is the next word after those before it, and that reads four earlier words
of the same schedule. -/
theorem scheduleRecurrence : Obligations.ScheduleRecurrence := by
  intro blk
  refine ⟨schedule_length blk, schedule_getElem?_block blk, ?_⟩
  intro t w2 w7 w15 w16 h16 h64 h2 h7 h15 hw16
  have hl : t ≤ (schedule blk).length := by rw [schedule_length]; omega
  rw [schedule_getElem?_next blk h16 h64, nextScheduleWord_take h16 hl h2 h7 h15 hw16]

end Sys2Proof.Machine
end

section
/-! Proofs about command streams and the host of spec 44_oneshot_hex_host.md: `UPDATE` as a sequence of commands (R135)
and the lengths the host rejects (R146). -/

namespace Sys2Proof.Machine

/-! ### A script as a fold of commands -/

@[simp] theorem andThen_next_right (r : Result) : andThen r .next = r := by
  cases r with
  | next s => rfl
  | fault f => rfl
  | refused f => rfl

theorem andThen_assoc (r : Result) (k l : State → Result) :
    andThen (andThen r k) l = andThen r fun s => andThen (k s) l := by
  cases r with
  | next s => rfl
  | fault f => rfl
  | refused f => rfl

/-- Running commands from the left and running a script from its head agree, whatever came before. -/
theorem foldl_exec_eq_andThen_runScript (cs : List Instr) (r : Result) :
    cs.foldl (fun r c => andThen r (exec c)) r = andThen r (runScript cs) := by
  induction cs generalizing r with
  | nil => exact (andThen_next_right r).symm
  | cons c cs ih =>
    calc (c :: cs).foldl (fun r c => andThen r (exec c)) r
        = andThen (andThen r (exec c)) (runScript cs) := ih (andThen r (exec c))
      _ = andThen r (runScript (c :: cs)) := andThen_assoc r (exec c) (runScript cs)

/-- `UPDATE` is the left fold of `UPD` over the message (R135). -/
theorem update_eq_foldl_exec_upd (m : List Byte) (s : State) :
    update m s = m.foldl (fun r b => andThen r (exec (.upd b))) (.next s) := by
  calc update m s
      = (m.map Instr.upd).foldl (fun r c => andThen r (exec c)) (.next s) :=
        (foldl_exec_eq_andThen_runScript (updateMacro m) (.next s)).symm
    _ = m.foldl (fun r b => andThen r (exec (.upd b))) (.next s) := List.foldl_map

/-! ### Commands after a fault (R167) -/

theorem exec_faulted (i : Instr) {s : State} (h : s.fault ≠ .none) : exec i s = .next s := by
  cases i with
  | init => exact unlessFaulted_faulted _ h
  | upd b => exact unlessFaulted_faulted _ h
  | final => exact unlessFaulted_faulted _ h

theorem runScript_faulted (cs : List Instr) {s : State} (h : s.fault ≠ .none) : runScript cs s = .next s := by
  induction cs with
  | nil => rfl
  | cons c cs ih => rw [runScript_cons, exec_faulted c h, andThen_next, ih]

/-- Settles O52: the script of `UPDATE` is a fold, and after a fault each of its commands is discarded. -/
theorem updateIsTheSequenceOfUpd : Obligations.UpdateIsTheSequenceOfUpd :=
  ⟨runScript_nil, update_eq_foldl_exec_upd, fun m _ h => runScript_faulted (updateMacro m) h⟩

/-! ### The lengths the host rejects (R146) -/

theorem inRange_eq_false_iff (req : Request) (p : HostParams) :
    req.inRange p = false ↔ req.sourceLength ≤ 0 ∨ (p.maxInputSize : Int) + 1 ≤ req.sourceLength := by
  rw [← Bool.not_eq_true, inRange_iff]
  omega

/-- A rejected length ends the call at its first step (R146). -/
theorem serve_of_inRange_eq_false {p : HostParams} {req : Request} (c : Collaborators) (s : State)
    (h : req.inRange p = false) : serve p c req s = .next ⟨p.invalidLength, s, []⟩ :=
  if_pos (ne_true_of_eq_false h)

/-- Settles O58: the two ends of the range are those of the first check of `serve`. -/
theorem hostRejectsLengthsOutOfRange : Obligations.HostRejectsLengthsOutOfRange := by
  intro p c req s hlen
  exact serve_of_inRange_eq_false c s ((inRange_eq_false_iff req p).mpr hlen)

end Sys2Proof.Machine
end

section
/-! Proofs about the faults of spec 60_exceptions.md: what raises each (R161, R162, R164), what taking one changes (R163),
and that only reset clears one (R166, R167). -/

namespace Sys2Proof.Machine

/-! ### The fault an accepted word raises -/

/-- The fault that an accepted word, decoded, raises from a state with `FAULT = None`: `.none` where it raises none. The
checks stand in the order of R165. -/
def raisedFault (s : State) : Decoded → FaultCode
  | .illegal _ => .illegalCommand
  | .instr .init => .none
  | .instr (.upd _) =>
    if s.phase.takesData then if s.atCeiling then .lengthOverflow else .none else .invalidStateError
  | .instr .final => if s.phase.takesData then .none else .invalidStateError

theorem raisedFault_eq_illegalCommand_iff (s : State) (d : Decoded) :
    raisedFault s d = .illegalCommand ↔ d.instr? = none := by
  rcases d with (_ | b | _) | why
  case instr.init => simp [raisedFault, Decoded.instr?]
  case instr.upd =>
    cases hp : s.phase.takesData <;> cases hc : s.atCeiling <;> simp [raisedFault, Decoded.instr?, hp, hc]
  case instr.final => cases hp : s.phase.takesData <;> simp [raisedFault, Decoded.instr?, hp]
  case illegal => simp [raisedFault, Decoded.instr?]

theorem raisedFault_eq_invalidStateError_iff (s : State) (d : Decoded) :
    raisedFault s d = .invalidStateError ↔
      ((∃ b, d = .instr (.upd b)) ∨ d = .instr .final) ∧ s.phase.takesData = false := by
  rcases d with (_ | b | _) | why
  case instr.init => simp [raisedFault]
  case instr.upd => cases hp : s.phase.takesData <;> cases hc : s.atCeiling <;> simp [raisedFault, hp, hc]
  case instr.final => cases hp : s.phase.takesData <;> simp [raisedFault, hp]
  case illegal => simp [raisedFault]

theorem raisedFault_eq_lengthOverflow_iff (s : State) (d : Decoded) :
    raisedFault s d = .lengthOverflow ↔
      (∃ b, d = .instr (.upd b)) ∧ s.phase.takesData = true ∧ s.atCeiling = true := by
  rcases d with (_ | b | _) | why
  case instr.init => simp [raisedFault]
  case instr.upd => cases hp : s.phase.takesData <;> cases hc : s.atCeiling <;> simp [raisedFault, hp, hc]
  case instr.final => cases hp : s.phase.takesData <;> simp [raisedFault, hp]
  case illegal => simp [raisedFault]

/-- From `FAULT = None` a command either takes the fault named by `raisedFault`, and does nothing else, or raises none. -/
theorem exec_fault_cases {i : Instr} {s t : State} (hs : s.fault = .none) (h : exec i s = .next t) :
    t = s.raise (raisedFault s (.instr i)) ∨ (raisedFault s (.instr i) = .none ∧ t.fault = .none) := by
  cases i with
  | init =>
    obtain ⟨hne, -⟩ | ⟨-, rfl⟩ := execInit_cases h
    · exact absurd hs hne
    · exact .inr ⟨rfl, hs⟩
  | upd b =>
    obtain ⟨hne, -⟩ | ⟨-, hp, rfl⟩ | ⟨-, hp, hc, rfl⟩ | ⟨-, hp, hc, habs⟩ := execUpd_cases h
    · exact absurd hs hne
    · exact .inl (by simp [raisedFault, hp])
    · exact .inl (by simp [raisedFault, hp, hc])
    · exact .inr ⟨by simp [raisedFault, hp, hc], (absorbByte_fault habs).trans hs⟩
  | final =>
    obtain ⟨hne, -⟩ | ⟨-, hp, rfl⟩ | ⟨-, hp, bs, -, rfl⟩ := execFinal_cases h
    · exact absurd hs hne
    · exact .inl (by simp [raisedFault, hp])
    · exact .inr ⟨by simp [raisedFault, hp], hs⟩

/-- The same of an accepted word. -/
theorem acceptWord_fault_cases {w : CmdWord} {s t : State} (hs : s.fault = .none) (h : acceptWord w s = .next t) :
    t = s.raise (raisedFault s (decode w)) ∨ (raisedFault s (decode w) = .none ∧ t.fault = .none) := by
  obtain ⟨i, hd, hexec⟩ | ⟨why, hd, hill⟩ := acceptWord_cases h
  · rw [hd]
    exact exec_fault_cases hs hexec
  · obtain ⟨hne, -⟩ | ⟨-, rfl⟩ := illegalCommand_cases hill
    · exact absurd hs hne
    · rw [hd]
      exact .inl rfl

theorem exec_fault_eq {i : Instr} {s t : State} (hs : s.fault = .none) (h : exec i s = .next t) :
    t.fault = raisedFault s (.instr i) := by
  obtain rfl | ⟨hnone, ht⟩ := exec_fault_cases hs h
  · rfl
  · rw [ht, hnone]

theorem acceptWord_fault_eq {w : CmdWord} {s t : State} (hs : s.fault = .none) (h : acceptWord w s = .next t) :
    t.fault = raisedFault s (decode w) := by
  obtain rfl | ⟨hnone, ht⟩ := acceptWord_fault_cases hs h
  · rfl
  · rw [ht, hnone]

/-- Fault entry is precise (R163). -/
theorem eq_raise_of_acceptWord_fault {w : CmdWord} {s t : State} (hs : s.fault = .none)
    (h : acceptWord w s = .next t) (ht : t.fault ≠ .none) : t = s.raise t.fault := by
  obtain rfl | ⟨-, hnone⟩ := acceptWord_fault_cases hs h
  · rfl
  · exact absurd hnone ht

/-! ### The overflow (R162) -/

theorem tblCeiling_toNat : tblCeiling.toNat = 2 ^ 64 - 512 := rfl

theorem atCeiling_iff_toNat (s : State) : s.atCeiling = true ↔ s.pl = 63 ∧ s.tbl.toNat = 2 ^ 64 - 512 := by
  rw [atCeiling_iff, ← tblCeiling_toNat, BitVec.toNat_inj]

/-- Settles O15: a `UPD` at the ceiling takes the fault before any write, and `raisedFault` names no other command and no
other state for it. -/
theorem updOverflow : Obligations.UpdOverflow := by
  refine ⟨tblCeiling_toNat, ?_, ?_⟩
  · intro b s hs hm hpl htbl
    exact execUpd_overflows b hs ((takesData_iff s.phase).mpr hm) ((atCeiling_iff s).mpr ⟨hpl, htbl⟩)
  · intro i s t hs h ht
    have hraised : raisedFault s (.instr i) = .lengthOverflow := (exec_fault_eq hs h).symm.trans ht
    obtain ⟨⟨b, hb⟩, hp, hc⟩ := (raisedFault_eq_lengthOverflow_iff s _).mp hraised
    exact ⟨⟨b, Decoded.instr.inj hb⟩, (takesData_iff s.phase).mp hp, (atCeiling_iff s).mp hc⟩

/-! ### After a fault (R163, R167) -/

theorem acceptWord_faulted (w : CmdWord) {s : State} (h : s.fault ≠ .none) : acceptWord w s = .next s := by
  unfold acceptWord
  split
  · exact exec_faulted _ h
  · exact unlessFaulted_faulted _ h

/-- Settles O39: the first check of every command, and of an illegal word, discards it. -/
theorem commandsAfterAFaultAreDiscarded : Obligations.CommandsAfterAFaultAreDiscarded :=
  fun w _ h => acceptWord_faulted w h

/-- Settles O37: the state after a fault is the raised one, and a faulted state discards every word. -/
theorem faultEntryChangesFaultOnly : Obligations.FaultEntryChangesFaultOnly := by
  intro w s t hs h ht
  obtain ⟨-, hstatus, -⟩ := status_layout t
  exact ⟨eq_raise_of_acceptWord_fault hs h ht, hstatus, digestValid_eq_false_of_fault ht,
    fun v => acceptWord_faulted v ht⟩

/-! ### The causes (R161, R162, R164) -/

/-- Settles O38: an accepted word ends with the fault `raisedFault` names, and each fault has its own cause there. -/
theorem faultCauses : Obligations.FaultCauses := by
  intro w s t hs h
  rw [acceptWord_fault_eq hs h]
  refine ⟨raisedFault_eq_illegalCommand_iff s _, ?_, ?_⟩
  · rw [raisedFault_eq_invalidStateError_iff, takesData_false_iff]
  · rw [raisedFault_eq_lengthOverflow_iff, takesData_iff, atCeiling_iff_toNat]

/-! ### Clearing a fault (R166) -/

/-- A sample without `rst` changes no faulted state (R167, R3). -/
theorem takeSample_faulted {p : Pins} {s : State} (hr : p.rst = false) (h : s.fault ≠ .none) :
    takeSample p s = .next s := by
  unfold takeSample
  rw [hr, acceptWord_faulted p.cmd h]
  simp

theorem takeSample_reset {p : Pins} (s : State) (hr : p.rst = true) : takeSample p s = .next (resetEngine s) :=
  if_pos hr

theorem step_nil {s : State} (hp : s.pins = []) : step s = .next s := by
  unfold step
  rw [hp]

theorem step_cons {s : State} {p : Pins} {rest : List Pins} (hp : s.pins = p :: rest) :
    step s = takeSample p { s with pins := rest } := by
  unfold step
  rw [hp]

/-- A step without `rst` uses up a sample of a faulted state and changes nothing else (R166). -/
theorem step_faulted {s : State} (h : s.fault ≠ .none) (hr : ∀ p rest, s.pins = p :: rest → p.rst = false) :
    step s = .next { s with pins := s.pins.tail } := by
  cases hp : s.pins with
  | nil =>
    rw [step_nil hp, List.tail_nil, ← hp]
  | cons p rest =>
    rw [step_cons hp]
    exact takeSample_faulted (hr p rest hp) h

/-- Settles O40: a sample is either discarded by the faulted engine or resets it. -/
theorem onlyResetClearsAFault : Obligations.OnlyResetClearsAFault := by
  intro s t hs h
  refine ⟨?_, ?_⟩
  · intro hr
    exact Host.Outcome.next.inj (h.symm.trans (step_faulted hs hr))
  · intro p rest hp hr
    rw [step_cons hp, takeSample_reset _ hr] at h
    obtain rfl := Host.Outcome.next.inj h
    exact afterReset_fault ..

end Sys2Proof.Machine
end

section
/-! Proofs about the largest message (R192): how many bytes a message may have before `UPD` overflows. -/

namespace Sys2Proof.Machine

/-- The state of a message in progress with `n` bytes absorbed since `INIT`, as far as `FAULT` depends on it: the
counters (R17 (c)) and which bytes of `PB` hold a value (R14). -/
structure HasAbsorbed (n : Nat) (s : State) : Prop where
  fault : s.fault = .none
  takesData : s.phase.takesData = true
  pl : s.pl.toNat = n % 64
  tbl : s.tbl.toNat = 512 * (n / 64)
  held : ∀ a < n % 64, s.pb.read a ≠ none

theorem hasAbsorbed_startMessage {s : State} (h : s.fault = .none) : HasAbsorbed 0 (startMessage s) where
  fault := h
  takesData := rfl
  pl := rfl
  tbl := rfl
  held a ha := absurd ha (Nat.not_lt_zero a)

namespace HasAbsorbed

variable {n : Nat} {s : State}

/-- The ceiling of R88 is met exactly by the largest message of R192. -/
theorem atCeiling_iff_length (h : HasAbsorbed n s) : s.atCeiling = true ↔ n = 2 ^ 61 - 1 := by
  have hpl : s.pl = 63 ↔ n % 64 = 63 := by rw [← h.pl, ← BitVec.toNat_inj]; rfl
  rw [atCeiling_iff_toNat, hpl, h.tbl]
  omega

/-- The byte stored at `PL` extends the bytes held by one. -/
theorem held_write (h : HasAbsorbed n s) (b : Byte) :
    ∀ a < n % 64 + 1, (s.pb.write s.fillIndex b).read a ≠ none := by
  intro a ha
  rw [Memory.read_write]
  split
  · exact Option.some_ne_none b
  · rename_i hne
    have hfill : s.fillIndex = n % 64 := h.pl
    exact h.held a (by omega)

/-- A byte that completes no block: `PL` counts it (R86). -/
theorem absorbByte_more (h : HasAbsorbed n s) (b : Byte) (hn : n % 64 < 63) :
    ∃ t, absorbByte b s = .next t ∧ HasAbsorbed (n + 1) t := by
  have hpl := h.pl
  have hlt : s.pl < 63 := BitVec.lt_def.mpr (hpl.trans_lt hn)
  have hmod : (n + 1) % 64 = n % 64 + 1 := by omega
  refine ⟨_, Machine.absorbByte_more b hlt, h.fault, rfl, ?_, ?_, ?_⟩
  · change (s.pl + 1).toNat = (n + 1) % 64
    bv_omega
  · exact h.tbl.trans (by omega)
  · rw [hmod]
    exact h.held_write b

/-- The 64th byte of a block: `TBL` counts the block, which still fits below the ceiling (R87). -/
theorem absorbByte_last (h : HasAbsorbed n s) (b : Byte) (hn : n % 64 = 63) (hmax : n + 1 < 2 ^ 61) :
    ∃ t, absorbByte b s = .next t ∧ HasAbsorbed (n + 1) t := by
  have htbl := h.tbl
  have hfull : ¬ s.pl < 63 := fun hlt => absurd (BitVec.lt_def.mp hlt) (by rw [h.pl, hn]; decide)
  have hmod : (n + 1) % 64 = 0 := by omega
  obtain ⟨blk, hblk⟩ := Memory.block?_isSome _ (hn ▸ h.held_write b)
  refine ⟨_, (Machine.absorbByte_last b hfull).trans (completeBlock_some hblk), h.fault, rfl, hmod.symm, ?_, ?_⟩
  · change (s.tbl + 512).toNat = 512 * ((n + 1) / 64)
    bv_omega
  · rw [hmod]
    exact fun a ha => absurd ha (Nat.not_lt_zero a)

/-- Below the largest message `UPD` absorbs its byte. -/
theorem execUpd_next (h : HasAbsorbed n s) (b : Byte) (hmax : n + 1 < 2 ^ 61) :
    ∃ t, execUpd b s = .next t ∧ HasAbsorbed (n + 1) t := by
  have hroom : s.atCeiling = false :=
    eq_false_of_ne_true fun hc => absurd (h.atCeiling_iff_length.mp hc) (by omega)
  rw [execUpd_absorbs b h.fault h.takesData hroom]
  by_cases hn : n % 64 < 63
  · exact h.absorbByte_more b hn
  · exact h.absorbByte_last b (by omega) hmax

/-- Up to the largest message `UPDATE` absorbs all its bytes (R135). -/
theorem update_next (h : HasAbsorbed n s) (m : List Byte) (hmax : n + m.length < 2 ^ 61) :
    ∃ t, update m s = .next t ∧ HasAbsorbed (n + m.length) t := by
  induction m generalizing n s with
  | nil => exact ⟨s, rfl, h⟩
  | cons b m ih =>
    have hlen : n + (b :: m).length = n + 1 + m.length := by
      rw [List.length_cons, Nat.add_comm m.length 1, Nat.add_assoc]
    rw [hlen] at hmax ⊢
    obtain ⟨u, hu, habs⟩ := h.execUpd_next b (by omega)
    obtain ⟨t, ht, hlast⟩ := ih habs hmax
    refine ⟨t, ?_, hlast⟩
    calc update (b :: m) s
        = andThen (execUpd b s) (update m) := rfl
      _ = .next t := by rw [hu, andThen_next, ht]

end HasAbsorbed

/-- `INIT` and a message the engine supports end with the whole message absorbed. -/
theorem runScript_init_update_next {s : State} {m : List Byte} (hs : s.fault = .none) (hmax : m.length < 2 ^ 61) :
    ∃ t, runScript (.init :: updateMacro m) s = .next t ∧ HasAbsorbed m.length t := by
  obtain ⟨t, ht, habs⟩ := (hasAbsorbed_startMessage hs).update_next m (by omega)
  rw [Nat.zero_add] at habs
  refine ⟨t, ?_, habs⟩
  calc runScript (.init :: updateMacro m) s
      = andThen (execInit s) (update m) := rfl
    _ = .next t := by rw [execInit, unlessFaulted_clear _ hs, andThen_next, ht]

/-- Settles O50: with `2^61 − 1` bytes absorbed the counters stand at the ceiling, where `UPD` only raises the fault. -/
theorem lengthCeiling : Obligations.LengthCeiling := by
  intro s m b hs hm
  obtain ⟨t, ht, habs⟩ := runScript_init_update_next (m := m) hs (by omega)
  exact ⟨t, ht, habs.fault, execUpd_overflows b habs.fault habs.takesData (habs.atCeiling_iff_length.mpr hm)⟩

end Sys2Proof.Machine
end

section
/-! Proofs about `decode` and `encode` of spec 30_encoding.md section 4: the tests of R70 and the two round trips. -/

namespace Sys2Proof

/-- `decode` is R70's chain of tests. -/
theorem decode_instr?_eq_ite (w : CmdWord) :
    (decode w).instr? =
      if w = 0x0100 then some .init
      else if w.extractLsb' 8 8 = 0x02 then some (.upd (w.extractLsb' 0 8))
      else if w = 0x0300 then some .final else none := by
  simp only [decode, apply_ite Decoded.instr?]
  rfl

/-- Settles O2: the tests of R70 determine the fields of a word, and the fields determine the word. -/
theorem decodeAndEncodeAgree : Obligations.DecodeAndEncodeAgree :=
  ⟨decode_instr?_eq_ite, rfl, fun _ => rfl, rfl, decode_encode, fun _ _ => encode_of_decode⟩

end Sys2Proof
end

section
/-! Proofs about the step and the input ports (R3, R29) and about reset (R27, R185). -/

namespace Sys2Proof.Machine

/-! ### One sample of the input ports -/

theorem takeSample_command {p : Pins} (s : State) (hr : p.rst = false) (hv : p.cmdValid = true) :
    takeSample p s = acceptWord p.cmd s := by
  simp [takeSample, Pins.accepts, hr, hv]

theorem takeSample_idle {p : Pins} (s : State) (hr : p.rst = false) (hv : p.cmdValid = false) :
    takeSample p s = .next s := by
  simp [takeSample, Pins.accepts, hr, hv]

theorem acceptWord_instr {w : CmdWord} {i : Instr} (s : State) (hd : decode w = .instr i) :
    acceptWord w s = exec i s := by
  rw [acceptWord, hd]

theorem acceptWord_illegalWord {w : CmdWord} {why : IllegalWord} (s : State) (hd : decode w = .illegal why) :
    acceptWord w s = illegalCommand s := by
  rw [acceptWord, hd]

/-- Settles O5: the sample is taken, its word accepted and the command run. -/
theorem stepRunsTheDecodedCommand : Obligations.StepRunsTheDecodedCommand := by
  intro s p rest i hp hr hv hd
  rw [step_cons hp, takeSample_command _ hr hv, acceptWord_instr _ hd]

/-- Settles O6: without an accepted word a step at most uses up a sample. -/
theorem stepWithoutACommandChangesNothing : Obligations.StepWithoutACommandChangesNothing := by
  refine ⟨fun s => step_nil, ?_, ?_⟩
  · intro s p rest hp hr hv
    rw [step_cons hp, takeSample_idle _ hr hv]
  · intro s p rest why hp hr hv hd
    rw [step_cons hp, takeSample_command _ hr hv, acceptWord_illegalWord _ hd]

/-! ### Reset -/

theorem status_of_phase_fault {s : State} {p : Phase} {f : FaultCode} (hp : s.phase = p) (hf : s.fault = f) :
    s.status = (0 : BitVec 4) ++ f.code ++ p.code := by
  rw [State.status, hp, hf]

theorem afterReset_status (n : Nat) (ps : List Pins) : (State.afterReset n ps).status = 0x00 :=
  (status_of_phase_fault (afterReset_phase ..) (afterReset_fault ..)).trans (by decide)

/-- Settles O7: a sample with `rst` leaves the state of `State.afterReset`, whatever else it holds. -/
theorem resetStepLeavesUninitialized : Obligations.ResetStepLeavesUninitialized := by
  intro s p rest hp hr
  rw [step_cons hp, takeSample_reset _ hr]
  exact ⟨_, rfl, rfl, rfl, rfl, rfl, afterReset_status _ _, rfl, rfl⟩

/-- Settles O8: `State.reset` is the state of reset number 0. -/
theorem resetStateValues : Obligations.ResetStateValues :=
  ⟨rfl, rfl, rfl, rfl, afterReset_status _ _, rfl, rfl⟩

end Sys2Proof.Machine
end

section
/-! Proofs about `INIT` of spec 40_init.md: its effect and frame (R80) and the initial hash values (R81). -/

namespace Sys2Proof.Machine

theorem execInit_clear {s : State} (h : s.fault = .none) : execInit s = .next (startMessage s) :=
  unlessFaulted_clear _ h

/-- A second `INIT` finds nothing to change (R80). -/
theorem startMessage_startMessage (s : State) : startMessage (startMessage s) = startMessage s := rfl

theorem startMessage_status {s : State} (h : s.fault = .none) : (startMessage s).status = 0x01 :=
  (status_of_phase_fault (startMessage_phase s) h).trans (by decide)

theorem startMessage_digestValid (s : State) : (startMessage s).digestValid = false := rfl

/-- Settles O10: `INIT` leaves `startMessage`, and a faulted state discards it. -/
theorem initStartsAMessage : Obligations.InitStartsAMessage := by
  refine ⟨fun s hs => ?_, fun s hs => exec_faulted .init hs⟩
  have hsecond : execInit (startMessage s) = .next (startMessage s) := by
    rw [execInit_clear (s := startMessage s) hs, startMessage_startMessage]
  exact ⟨startMessage s, execInit_clear hs, rfl, rfl, rfl, rfl, fun _ => rfl, startMessage_digestValid s, fun _ => rfl,
    hs, startMessage_status hs, hsecond⟩

/-- Settles O12: both ends of `INIT` keep the fields it does not write. -/
theorem initFrame : Obligations.InitFrame := by
  intro s t h
  obtain ⟨hs, rfl⟩ | ⟨hs, rfl⟩ := execInit_cases h
  · exact ⟨rfl, rfl, rfl, fun hnone => absurd hnone hs, fun _ => rfl⟩
  · exact ⟨rfl, rfl, rfl, fun _ => ⟨fun _ => rfl, fun _ => rfl⟩, fun hne => absurd hs hne⟩

/-! ### The initial hash values -/

/-- The integer square root of `p_i * 2^64`: its whole part, and `IV[i]` as its 32 fractional bits. -/
def initialRoot (i : Fin 8) : Nat := [1, 1, 2, 2, 3, 3, 4, 4].getD i.val 0 * 2 ^ 32 + initialHash[i].toNat

theorem initialRoot_isRoot (i : Fin 8) :
    initialRoot i ^ 2 ≤ [2, 3, 5, 7, 11, 13, 17, 19].getD i.val 0 * 2 ^ 64 ∧
      [2, 3, 5, 7, 11, 13, 17, 19].getD i.val 0 * 2 ^ 64 < (initialRoot i + 1) ^ 2 := by
  revert i
  decide

theorem initialRoot_mod (i : Fin 8) : initialHash[i].toNat = initialRoot i % 2 ^ 32 := by
  rw [initialRoot, Nat.mul_add_mod_self_right, Nat.mod_eq_of_lt initialHash[i].isLt]

/-- Settles O11: each initial hash value is the fraction of a root of its prime. -/
theorem initialHashValues : Obligations.InitialHashValues :=
  ⟨rfl, fun i => ⟨initialRoot i, (initialRoot_isRoot i).1, (initialRoot_isRoot i).2, initialRoot_mod i⟩⟩

end Sys2Proof.Machine
end

section
/-! Proofs about `UPD` of spec 41_update.md: a byte appended (R86), a block completed (R87), and the frame (R85). -/

namespace Sys2Proof.Machine

theorem pl_lt_63_iff (s : State) : s.pl < 63 ↔ s.pl ≠ 63 := by bv_omega

theorem fillIndex_lt (s : State) : s.fillIndex < 64 := s.pl.isLt

/-- The ceiling is looked at only by the 64th byte of a block (R88). -/
theorem atCeiling_eq_false_of_pl_lt {s : State} (h : s.pl < 63) : s.atCeiling = false :=
  eq_false_of_ne_true fun hc => (pl_lt_63_iff s).mp h ((atCeiling_iff s).mp hc).1

theorem atCeiling_eq_false_of_tbl_ne {s : State} (h : s.tbl ≠ tblCeiling) : s.atCeiling = false :=
  eq_false_of_ne_true fun hc => h ((atCeiling_iff s).mp hc).2

/-- A `UPD` that completes no block (R86). -/
theorem execUpd_more {s : State} (b : Byte) (h1 : s.fault = .none) (h2 : s.phase.takesData = true) (h3 : s.pl < 63) :
    execUpd b s = .next { s with pb := s.pb.write s.fillIndex b, phase := .absorbing, pl := s.pl + 1 } :=
  (execUpd_absorbs b h1 h2 (atCeiling_eq_false_of_pl_lt h3)).trans (absorbByte_more b h3)

/-- A `UPD` that completes a block (R87). -/
theorem execUpd_last {s : State} {b : Byte} {blk : Block} (h1 : s.fault = .none) (h2 : s.phase.takesData = true)
    (h3 : s.pl = 63) (h4 : s.tbl ≠ tblCeiling) (h5 : (s.pb.write s.fillIndex b).block? = some blk) :
    execUpd b s = .next { s with
      h := compress s.h blk, tbl := s.tbl + 512, pl := 0, pb := [], phase := .absorbing } := by
  rw [execUpd_absorbs b h1 h2 (atCeiling_eq_false_of_tbl_ne h4), absorbByte_last b fun h => (pl_lt_63_iff s).mp h h3]
  exact completeBlock_some h5

/-- Settles O13: the byte is the one write to `PB`. -/
theorem updAppendsAByte : Obligations.UpdAppendsAByte := by
  intro b s hs hm hpl
  exact ⟨_, execUpd_more b hs ((takesData_iff s.phase).mpr hm) hpl, Memory.read_write_same .., fun _ ha =>
    Memory.read_write_other _ _ ha, rfl, rfl, rfl, rfl, hs, rfl⟩

/-- Sixty-three bytes held and the one stored after them are a block. -/
theorem Memory.block?_write_last {m : Memory} (b : Byte) (hheld : ∀ a < 63, m.read a ≠ none) :
    ∃ blk : Block, (m.write 63 b).block? = some blk ∧ (∀ i : Fin 64, i.val < 63 → m.read i.val = some blk[i]) ∧
      blk[63] = b := by
  obtain ⟨blk, hblk⟩ : ∃ blk, (m.write 63 b).block? = some blk := by
    refine Memory.block?_isSome _ fun a ha => ?_
    rw [Memory.read_write]
    split
    · exact Option.some_ne_none b
    · exact hheld a (by omega)
  have hread := (Memory.block?_eq_some _ _).mp hblk
  refine ⟨blk, hblk, fun i hi => ?_, ?_⟩
  · rw [← hread i, Memory.read_write_other _ _ hi.ne]
  · have hlast : (m.write 63 b).read 63 = some blk[63] := hread 63
    rw [Memory.read_write_same] at hlast
    exact (Option.some.inj hlast).symm

/-- Below the ceiling a whole number of blocks leaves room for one more (R17). -/
theorem tbl_add_512_toNat {s : State} (hwhole : s.tbl.toNat % 512 = 0) (hne : s.tbl ≠ tblCeiling) :
    (s.tbl + 512).toNat = s.tbl.toNat + 512 := by
  have hne' : s.tbl.toNat ≠ 2 ^ 64 - 512 := fun h => hne (BitVec.eq_of_toNat_eq (h.trans tblCeiling_toNat.symm))
  have hlt := s.tbl.isLt
  rw [BitVec.toNat_add, show (512 : DWord).toNat = 512 from rfl]
  omega

/-- Settles O14: the stored byte makes the block whole, and `TBL` has room for its 512 bits. -/
theorem updCompletesABlock : Obligations.UpdCompletesABlock := by
  intro b s hs hm hpl hwhole hne hheld
  have hfill : s.fillIndex = 63 := by rw [State.fillIndex, hpl]; rfl
  obtain ⟨blk, hblk, hbytes, hlast⟩ := Memory.block?_write_last b hheld
  rw [← hfill] at hblk
  exact ⟨blk, _, hbytes, hlast, execUpd_last hs ((takesData_iff s.phase).mpr hm) hpl hne hblk, rfl,
    tbl_add_512_toNat hwhole hne, rfl, fun _ => rfl, rfl, hs, rfl⟩

/-- Settles O18, an end of `UPD` at a time: discarded, a fault raised, a byte appended, a block completed. -/
theorem updFrame : Obligations.UpdFrame := by
  intro b s t h
  obtain ⟨hs, rfl⟩ | ⟨hs, -, rfl⟩ | ⟨hs, -, -, rfl⟩ | ⟨hs, -, -, habs⟩ := execUpd_cases h
  · exact ⟨rfl, rfl, rfl, fun _ => rfl, fun _ => rfl, fun hn => absurd hn hs, fun hn => absurd hn hs⟩
  · exact ⟨rfl, rfl, rfl, fun hf => absurd hs hf, fun _ => rfl, nofun, nofun⟩
  · exact ⟨rfl, rfl, rfl, fun hf => absurd hs hf, fun _ => rfl, nofun, nofun⟩
  · obtain ⟨hpl, rfl⟩ | ⟨hpl, blk, -, rfl⟩ := absorbByte_cases habs
    · exact ⟨rfl, rfl, rfl, fun hf => absurd hs hf, fun hf => absurd hs hf,
        fun _ _ => ⟨fun _ ha => Memory.read_write_other _ _ ha, rfl, rfl⟩,
        fun _ h63 => absurd h63 ((pl_lt_63_iff s).mp hpl)⟩
    · exact ⟨rfl, rfl, rfl, fun hf => absurd hs hf, fun hf => absurd hs hf, fun _ hlt => absurd hlt hpl,
        fun _ _ _ => rfl⟩

end Sys2Proof.Machine
end

section
/-! Proofs about big-endian values of spec 20_memory.md: a word and its bytes (R41 to R43), the length field of a block
(R42) and the digest port (R52). -/

namespace Sys2Proof.Machine

/-! ### A value and its bytes -/

/-- Thirty-two bits of a value, as four bytes one after another. -/
theorem extractLsb'_32_eq_bytes {n : Nat} (x : BitVec n) (k : Nat) :
    x.extractLsb' k 32 =
      x.extractLsb' (k + 24) 8 ++ x.extractLsb' (k + 16) 8 ++ x.extractLsb' (k + 8) 8 ++ x.extractLsb' k 8 := by
  rw [BitVec.extractLsb'_append_extractLsb'_eq_extractLsb' (by omega),
    BitVec.extractLsb'_append_extractLsb'_eq_extractLsb' (by omega),
    BitVec.extractLsb'_append_extractLsb'_eq_extractLsb' (by omega)]

theorem word_eq_bytes (w : Word) :
    w = w.extractLsb' 24 8 ++ w.extractLsb' 16 8 ++ w.extractLsb' 8 8 ++ w.extractLsb' 0 8 := by
  rw [← extractLsb'_32_eq_bytes w 0, BitVec.extractLsb'_eq_self]

theorem bytesValue_concat (bs : List Byte) (b : Byte) : bytesValue (bs ++ [b]) = bytesValue bs * 256 + b.toNat := by
  simp [bytesValue]

/-- Byte `i` of a big-endian value is digit `i` of its number in base 256, most significant first (R41). -/
theorem bytesValue_digit (bs : List Byte) {i : Nat} (hi : i < bs.length) :
    bytesValue bs / 256 ^ (bs.length - 1 - i) % 256 = bs[i].toNat := by
  induction bs using List.reverseRecOn with
  | nil => exact absurd hi (Nat.not_lt_zero i)
  | append_singleton bs b ih =>
    have hb : b.toNat < 256 := b.isLt
    rw [List.length_append, List.length_singleton] at hi
    rw [bytesValue_concat, List.length_append, List.length_singleton, Nat.add_sub_cancel]
    by_cases hlast : i = bs.length
    · subst hlast
      rw [List.getElem_concat_length rfl, Nat.sub_self]
      omega
    · have hlt : i < bs.length := by omega
      have hdiv : (bytesValue bs * 256 + b.toNat) / 256 = bytesValue bs := by omega
      rw [List.getElem_append_left hlt, ← ih hlt, show bs.length - i = (bs.length - 1 - i) + 1 by omega,
        Nat.pow_succ', ← Nat.div_div_eq_div_mul, hdiv]

/-- The bytes of a number's big-endian value are the bytes it was made of (R41, R42). -/
theorem bigEndian_bytesValue {n : Nat} {bs : List Byte} (h : bs.length = n) :
    bigEndian n (BitVec.ofNat (8 * n) (bytesValue bs)) = bs := by
  subst h
  refine List.ext_getElem (bigEndian_length ..) fun i hi hi' => BitVec.eq_of_toNat_eq ?_
  rw [← bytesValue_digit bs hi']
  simp only [bigEndian, List.getElem_map, List.getElem_range, BitVec.extractLsb'_toNat, BitVec.toNat_ofNat,
    Nat.shiftRight_eq_div_pow]
  rw [show 8 * bs.length = 8 * (bs.length - 1 - i) + (8 * bs.length - 8 * (bs.length - 1 - i)) by omega, Nat.pow_add,
    Nat.mod_mul_right_div_self, Nat.mod_mod_of_dvd _ (Nat.pow_dvd_pow 2 (by omega)), Nat.pow_mul]

/-! ### The length field of a block (R42) -/

theorem writeBE_length_read (m : Memory) (len : DWord) {j : Nat} (hj : j < 8) :
    (m.writeBE 56 8 len).read (56 + j) = some (len.extractLsb' (56 - 8 * j) 8) := by
  rw [Memory.read_writeBE, if_pos (by omega), show 8 * (8 - 1 - (56 + j - 56)) = 56 - 8 * j by omega]

theorem writeBE_length_read_other (m : Memory) (len : DWord) {a : Nat} (ha : a < 56 ∨ 64 ≤ a) :
    (m.writeBE 56 8 len).read a = m.read a := by
  rw [Memory.read_writeBE, if_neg (by omega)]

/-- A block with a length field ends with the upper and the lower half of the length. -/
theorem blockWord_length {m : Memory} {len : DWord} {blk : Block} (h : (m.writeBE 56 8 len).block? = some blk) :
    blockWord blk 14 = len.extractLsb' 32 32 ∧ blockWord blk 15 = len.extractLsb' 0 32 := by
  have hbyte (j : Nat) (hj : j < 8) : blk[56 + j] = len.extractLsb' (56 - 8 * j) 8 :=
    Option.some.inj (((Memory.block?_eq_some _ _).mp h ⟨56 + j, by omega⟩).symm.trans (writeBE_length_read m len hj))
  rw [extractLsb'_32_eq_bytes len 32, extractLsb'_32_eq_bytes len 0]
  constructor
  · change (blk[56 + 0] ++ blk[56 + 1] ++ blk[56 + 2] ++ blk[56 + 3] : Word) = _
    rw [hbyte 0 (by decide), hbyte 1 (by decide), hbyte 2 (by decide), hbyte 3 (by decide)]
  · change (blk[56 + 4] ++ blk[56 + 5] ++ blk[56 + 6] ++ blk[56 + 7] : Word) = _
    rw [hbyte 4 (by decide), hbyte 5 (by decide), hbyte 6 (by decide), hbyte 7 (by decide)]

/-- Settles O20: the length field is the last two of the block's own words. -/
theorem lengthFieldIsBigEndian : Obligations.LengthFieldIsBigEndian := by
  refine fun m len => ⟨fun j hj => writeBE_length_read m len hj, fun a ha => writeBE_length_read_other m len ha, ?_⟩
  intro blk h
  obtain ⟨h14, h15⟩ := blockWord_length h
  exact ⟨h14 ▸ schedule_getElem?_block blk 14, h15 ▸ schedule_getElem?_block blk 15⟩

/-! ### The digest port (R52) -/

theorem bigEndian_getElem? {n i : Nat} (v : BitVec (8 * n)) (hi : i < n) :
    (bigEndian n v)[i]? = some (v.extractLsb' (8 * (n - 1 - i)) 8) := by
  simp [bigEndian, hi]

theorem digestBytes_length (h : Vector Word 8) : (digestBytes h).length = 32 := by
  simp [digestBytes]

/-- Where every part has `k` elements, an index into the parts in a row is an index of a part and one inside it. -/
theorem getElem?_flatMap_of_length {α β : Type} {k : Nat} (hk : 0 < k) {f : α → List β} (hf : ∀ a, (f a).length = k)
    (l : List α) (i : Nat) : (l.flatMap f)[i]? = l[i / k]?.bind fun a => (f a)[i % k]? := by
  induction l generalizing i with
  | nil => rfl
  | cons a l ih =>
    rw [List.flatMap_cons]
    by_cases hi : i < k
    · rw [List.getElem?_append_left (by rwa [hf]), Nat.div_eq_of_lt hi, Nat.mod_eq_of_lt hi]
      rfl
    · have hki : k ≤ i := Nat.le_of_not_lt hi
      rw [List.getElem?_append_right (by rwa [hf]), hf, ih, Nat.div_eq_sub_div hk hki, List.getElem?_cons_succ,
        Nat.mod_eq_sub_mod hki]

/-- What `FINAL` writes to `DG` is the bytes of the digest in order (R43). -/
theorem emitDigest_read_eq_digestBytes (h : Vector Word 8) (i : Nat) :
    (emitDigest h).read i = (digestBytes h)[i]? := by
  rw [emitDigest_read, digestBytes, getElem?_flatMap_of_length (by decide) (bigEndian_length 4)]
  by_cases hi : i < 32
  · have hget : h.toList[i / 4]? = some h[i / 4] := by simp
    rw [if_pos hi, hget]
    exact (bigEndian_getElem? (n := 4) _ (Nat.mod_lt i (by decide))).symm
  · have hget : h.toList[i / 4]? = none := by simp; omega
    rw [if_neg hi, hget]
    rfl

theorem readBE_emitDigest (h : Vector Word 8) :
    (emitDigest h).readBE 0 32 = some (BitVec.ofNat 256 (bytesValue (digestBytes h))) := by
  have hbytes : (emitDigest h).readBytes 0 (digestBytes h).length = some (digestBytes h) :=
    Memory.readBytes_eq_some fun k _ => by rw [Nat.zero_add, emitDigest_read_eq_digestBytes]
  rw [digestBytes_length] at hbytes
  rw [Memory.readBE, hbytes]
  rfl

/-- A read of the digest port after `FINAL`, as the 32 bytes a host takes from it (R52). -/
theorem bigEndian_digestValue (h : Vector Word 8) :
    bigEndian 32 (BitVec.ofNat 256 (bytesValue (digestBytes h))) = digestBytes h :=
  bigEndian_bytesValue (digestBytes_length h)

theorem readDigest_of_digestValid {s : State} (hv : s.digestValid = true) (hdg : s.dg = emitDigest s.h) :
    s.readDigest = .next (BitVec.ofNat 256 (bytesValue (digestBytes s.h))) := by
  rw [State.readDigest, if_pos hv, hdg, readBE_emitDigest]

theorem readDigestBytes_of_digestValid {s : State} (hv : s.digestValid = true) (hdg : s.dg = emitDigest s.h) :
    readDigestBytes s = some (digestBytes s.h) := by
  rw [readDigestBytes, readDigest_of_digestValid hv hdg]
  exact congrArg some (bigEndian_digestValue s.h)

end Sys2Proof.Machine
end

section
/-! Proofs about `FINAL` of spec 42_finalize.md: the length it encodes (R96), the blocks of its padding (R97 to R100), the
state it leaves (R102), its frame, and the bytes of `PB` it does not read (R104). -/

namespace Sys2Proof.Machine

open Sys2Proof.Safety

/-- Settles O19: `8 * PL` is at most 504. -/
theorem encodedLengthDoesNotWrap : Obligations.EncodedLengthDoesNotWrap := by
  intro s h
  have hpl : s.pl.toNat < 64 := s.pl.isLt
  rw [State.encodedLength, State.fillIndex, BitVec.toNat_add, BitVec.toNat_ofNat]
  omega

/-! ### The blocks of the padding -/

/-- The last message bytes, the marker, zeros and the length in one block (R97, R99). -/
def IsPaddedBlock (s : State) (blk : Block) : Prop :=
  ∀ i : Fin 64,
    (i.val < s.fillIndex → s.pb.read i.val = some blk[i]) ∧ (i.val = s.fillIndex → blk[i] = 0x80) ∧
    (s.fillIndex < i.val → i.val < 56 → blk[i] = 0x00) ∧
    (56 ≤ i.val → blk[i] = s.encodedLength.extractLsb' (8 * (63 - i.val)) 8)

/-- The last message bytes, the marker and zeros (R98). -/
def IsMarkedBlock (s : State) (blk : Block) : Prop :=
  ∀ i : Fin 64,
    (i.val < s.fillIndex → s.pb.read i.val = some blk[i]) ∧ (i.val = s.fillIndex → blk[i] = 0x80) ∧
    (s.fillIndex < i.val → blk[i] = 0x00)

/-- Zeros and the length (R99). -/
def IsLengthBlock (s : State) (blk : Block) : Prop :=
  ∀ i : Fin 64, (i.val < 56 → blk[i] = 0x00) ∧
    (56 ≤ i.val → blk[i] = s.encodedLength.extractLsb' (8 * (63 - i.val)) 8)

theorem closeBlock_markedBlock_read (s : State) (x : Nat) :
    (closeBlock (markedBlock s) (s.fillIndex + 1) s.encodedLength).read x =
      if 56 ≤ x ∧ x < 64 then some (s.encodedLength.extractLsb' (8 * (63 - x)) 8)
      else if s.fillIndex + 1 ≤ x ∧ x < 56 then some 0x00
      else if x = s.fillIndex then some 0x80 else s.pb.read x := by
  rw [closeBlock_read, markedBlock_read]

theorem markedBlock_zeroUpTo_read (s : State) (x : Nat) :
    ((markedBlock s).zeroUpTo (s.fillIndex + 1) 64).read x =
      if s.fillIndex + 1 ≤ x ∧ x < 64 then some 0x00
      else if x = s.fillIndex then some 0x80 else s.pb.read x := by
  rw [Memory.read_zeroUpTo, markedBlock_read]

/-- The block of `FINAL` where the length fits after the marker. -/
theorem isPaddedBlock_of_block? {s : State} {blk : Block} (hfill : s.fillIndex < 56)
    (h : (closeBlock (markedBlock s) (s.fillIndex + 1) s.encodedLength).block? = some blk) : IsPaddedBlock s blk := by
  intro i
  have hread := (Memory.block?_eq_some _ _).mp h i
  rw [closeBlock_markedBlock_read] at hread
  refine ⟨fun hi => ?_, fun hi => ?_, fun hi hi' => ?_, fun hi => ?_⟩
  · rwa [if_neg (by omega), if_neg (by omega), if_neg (by omega)] at hread
  · rw [if_neg (by omega), if_neg (by omega), if_pos hi] at hread
    exact (Option.some.inj hread).symm
  · rw [if_neg (by omega), if_pos ⟨hi, hi'⟩] at hread
    exact (Option.some.inj hread).symm
  · rw [if_pos ⟨hi, i.isLt⟩] at hread
    exact (Option.some.inj hread).symm

/-- The first block of `FINAL` where the length does not fit. -/
theorem isMarkedBlock_of_block? {s : State} {blk : Block}
    (h : ((markedBlock s).zeroUpTo (s.fillIndex + 1) 64).block? = some blk) : IsMarkedBlock s blk := by
  intro i
  have hread := (Memory.block?_eq_some _ _).mp h i
  rw [markedBlock_zeroUpTo_read] at hread
  refine ⟨fun hi => ?_, fun hi => ?_, fun hi => ?_⟩
  · rwa [if_neg (by omega), if_neg (by omega)] at hread
  · rw [if_neg (by omega), if_pos hi] at hread
    exact (Option.some.inj hread).symm
  · rw [if_pos ⟨hi, i.isLt⟩] at hread
    exact (Option.some.inj hread).symm

/-- The second block: nothing of the first is left in it. -/
theorem isLengthBlock_of_block? {s : State} {m : Memory} {blk : Block}
    (h : (closeBlock m 0 s.encodedLength).block? = some blk) : IsLengthBlock s blk := by
  intro i
  have hread := (Memory.block?_eq_some _ _).mp h i
  rw [closeBlock_read] at hread
  refine ⟨fun hi => ?_, fun hi => ?_⟩
  · rw [if_neg (by omega), if_pos ⟨Nat.zero_le _, hi⟩] at hread
    exact (Option.some.inj hread).symm
  · rw [if_pos ⟨hi, i.isLt⟩] at hread
    exact (Option.some.inj hread).symm

/-- Whether a byte of the marked and zero-filled block holds a value depends on the message bytes alone. -/
theorem markedBlock_zeroUpTo_holds {s : State} (hheld : ∀ a < s.fillIndex, s.pb.read a ≠ none) (x : Nat) (hx : x < 64) :
    ((markedBlock s).zeroUpTo (s.fillIndex + 1) 64).read x ≠ none := by
  rw [markedBlock_zeroUpTo_read]
  split
  · exact Option.some_ne_none _
  · split
    · exact Option.some_ne_none _
    · exact hheld x (by omega)

theorem closeBlock_markedBlock_holds {s : State} (hheld : ∀ a < s.fillIndex, s.pb.read a ≠ none) (x : Nat)
    (hx : x < 64) : (closeBlock (markedBlock s) (s.fillIndex + 1) s.encodedLength).read x ≠ none := by
  rw [closeBlock_markedBlock_read]
  split
  · exact Option.some_ne_none _
  · split
    · exact Option.some_ne_none _
    · split
      · exact Option.some_ne_none _
      · exact hheld x (by omega)

theorem closeBlock_zero_holds (m : Memory) (len : DWord) (x : Nat) (hx : x < 64) : (closeBlock m 0 len).read x ≠ none := by
  rw [closeBlock_read]
  split
  · exact Option.some_ne_none _
  · rw [if_pos (by omega)]
    exact Option.some_ne_none _

theorem finalBlocks_one {s : State} {blk : Block} (hfill : s.fillIndex < 56)
    (h : (closeBlock (markedBlock s) (s.fillIndex + 1) s.encodedLength).block? = some blk) :
    finalBlocks s = some [blk] := by
  simp only [finalBlocks, if_neg (Nat.not_le_of_lt hfill), h, Option.map_some]

theorem finalBlocks_two {s : State} {blk fresh : Block} (hfill : 56 ≤ s.fillIndex)
    (h1 : ((markedBlock s).zeroUpTo (s.fillIndex + 1) 64).block? = some blk)
    (h2 : (closeBlock ((markedBlock s).zeroUpTo (s.fillIndex + 1) 64) 0 s.encodedLength).block? = some fresh) :
    finalBlocks s = some [blk, fresh] := by
  simp only [finalBlocks, if_pos hfill, h1, h2]

/-- With the message bytes held and room for the length, the padding is one block. -/
theorem exists_finalBlocks_one {s : State} (hfill : s.fillIndex < 56) (hheld : ∀ a < s.fillIndex, s.pb.read a ≠ none) :
    ∃ blk, finalBlocks s = some [blk] ∧ IsPaddedBlock s blk := by
  obtain ⟨blk, hblk⟩ := Memory.block?_isSome _ (closeBlock_markedBlock_holds hheld)
  exact ⟨blk, finalBlocks_one hfill hblk, isPaddedBlock_of_block? hfill hblk⟩

/-- With the message bytes held and no room for the length, the padding is two blocks. -/
theorem exists_finalBlocks_two {s : State} (hfill : 56 ≤ s.fillIndex) (hheld : ∀ a < s.fillIndex, s.pb.read a ≠ none) :
    ∃ blk fresh, finalBlocks s = some [blk, fresh] ∧ IsMarkedBlock s blk ∧ IsLengthBlock s fresh := by
  obtain ⟨blk, hblk⟩ := Memory.block?_isSome _ (markedBlock_zeroUpTo_holds hheld)
  obtain ⟨fresh, hfresh⟩ := Memory.block?_isSome _
    (closeBlock_zero_holds ((markedBlock s).zeroUpTo (s.fillIndex + 1) 64) s.encodedLength)
  exact ⟨blk, fresh, finalBlocks_two hfill hblk hfresh, isMarkedBlock_of_block? hblk, isLengthBlock_of_block? hfresh⟩

/-- Where the bytes below `PL` hold values, so do all bytes `FINAL` compresses. -/
theorem exists_finalBlocks {s : State} (hheld : ∀ a < s.fillIndex, s.pb.read a ≠ none) :
    ∃ bs, finalBlocks s = some bs := by
  obtain hfill | hfill := Nat.lt_or_ge s.fillIndex 56
  · obtain ⟨blk, h, -⟩ := exists_finalBlocks_one hfill hheld
    exact ⟨_, h⟩
  · obtain ⟨blk, fresh, h, -, -⟩ := exists_finalBlocks_two hfill hheld
    exact ⟨_, h⟩

/-! ### The state `FINAL` leaves -/

theorem execFinal_some {s : State} {bs : List Block} (h1 : s.fault = .none) (h2 : s.phase.takesData = true)
    (h3 : finalBlocks s = some bs) : execFinal s = .next (finishMessage s (bs.foldl compress s.h)) :=
  (execFinal_finishes h1 h2).trans (finishBlocks_some h3)

theorem finishMessage_digestValid {s : State} (h : Vector Word 8) (hs : s.fault = .none) :
    (finishMessage s h).digestValid = true := by
  rw [State.digestValid, finishMessage_phase, finishMessage_fault, hs]
  rfl

/-- Settles O21: the one block is the padded one. -/
theorem finalWithOneBlock : Obligations.FinalWithOneBlock := by
  intro s hs hm hpl hheld
  obtain ⟨blk, hblocks, hblk⟩ := exists_finalBlocks_one (Nat.lt_succ_of_le hpl) hheld
  exact ⟨blk, _, hblk, execFinal_some hs ((takesData_iff s.phase).mpr hm) hblocks, rfl, rfl, rfl, hs,
    finishMessage_digestValid _ hs⟩

/-- Settles O22: the message bytes with the marker are the first block, the length alone the second. -/
theorem finalWithTwoBlocks : Obligations.FinalWithTwoBlocks := by
  intro s hs hm hpl hheld
  obtain ⟨blk, fresh, hblocks, hblk, hfresh⟩ := exists_finalBlocks_two hpl hheld
  exact ⟨blk, fresh, _, hblk, hfresh, execFinal_some hs ((takesData_iff s.phase).mpr hm) hblocks, rfl, rfl, rfl, hs,
    finishMessage_digestValid _ hs⟩

/-- Settles O24: the port shows the digest's bytes in order, and four of them in a row are a word of `H`. -/
theorem digestPortAfterFinal : Obligations.DigestPortAfterFinal := by
  intro s t hs h ht
  obtain ⟨h', rfl⟩ := finishes_of_execFinal_fault_none h ht
  have hport := readDigest_of_digestValid (finishMessage_digestValid h' hs) rfl
  refine ⟨_, hport, ?_⟩
  rw [finishMessage_dg, finishMessage_h]
  have hbyte : ∀ i < 32, (emitDigest h').read i =
      some ((BitVec.ofNat 256 (bytesValue (digestBytes h'))).extractLsb' (248 - 8 * i) 8) := by
    intro i hi
    rw [emitDigest_read_eq_digestBytes, ← bigEndian_digestValue h', bigEndian_getElem? _ hi, bigEndian_digestValue,
      show 8 * (32 - 1 - i) = 248 - 8 * i by omega]
  refine ⟨hbyte, fun i => ?_⟩
  have hword (j k : Nat) (hj : j < 4) (hk : k + 8 * j = 248 - 32 * i.val) :
      (BitVec.ofNat 256 (bytesValue (digestBytes h'))).extractLsb' k 8 = h'[i].extractLsb' (24 - 8 * j) 8 := by
    have hread := (hbyte (4 * i.val + j) (by omega)).symm.trans (emitDigest_read_wordByte h' i hj)
    rw [show k = 248 - 8 * (4 * i.val + j) by omega]
    exact Option.some.inj hread
  rw [extractLsb'_32_eq_bytes, hword 0 _ (by decide) (by omega), hword 1 _ (by decide) (by omega),
    hword 2 _ (by decide) (by omega), hword 3 _ (by decide) (by omega)]
  exact (word_eq_bytes h'[i]).symm

/-- Settles O26: the state `FINAL` leaves is in a phase that takes no data. -/
theorem stateAfterFinal : Obligations.StateAfterFinal := by
  intro s t hs h ht
  obtain ⟨h', rfl⟩ := finishes_of_execFinal_fault_none h ht
  exact ⟨rfl, finishMessage_digestValid h' hs, rfl, fun _ => rfl, fun b => execUpd_invalidState b hs rfl,
    execFinal_invalidState hs rfl, _, execInit_clear hs, rfl, hs, fun _ => rfl⟩

/-- Settles O27, an end of `FINAL` at a time: discarded, a fault raised, the message finished. -/
theorem finalFrame : Obligations.FinalFrame := by
  intro s t h
  obtain ⟨hs, rfl⟩ | ⟨hs, -, rfl⟩ | ⟨hs, -, bs, -, rfl⟩ := execFinal_cases h
  · exact ⟨rfl, fun _ => rfl, fun _ => rfl, fun hn => absurd hn hs⟩
  · exact ⟨rfl, fun hf => absurd hs hf, fun _ => rfl, nofun⟩
  · exact ⟨rfl, fun hf => absurd hs hf, fun hf => absurd hs hf, fun _ => ⟨rfl, fun _ => rfl⟩⟩

/-! ### Bytes of `PB` that no command reads (R90, R104) -/

theorem sameMessage_of_pb_nil {s t : State} (hh : s.h = t.h) (hpl : s.pl = t.pl) (htbl : s.tbl = t.tbl)
    (hphase : s.phase = t.phase) (hfault : s.fault = t.fault) (hix : s.freeIx = t.freeIx) (hs : s.pb = [])
    (ht : t.pb = []) : SameMessage s t :=
  ⟨hh, hpl, htbl, hphase, hfault, hix, fun _ _ => by rw [hs, ht]⟩

theorem sameMessage_raise {s t : State} (h : SameMessage s t) (f : FaultCode) : SameMessage (s.raise f) (t.raise f) := by
  obtain ⟨hh, hpl, htbl, hphase, -, hix, hread⟩ := h
  exact ⟨hh, hpl, htbl, hphase, rfl, hix, hread⟩

/-- A byte stored at `PL` is stored after the same bytes. -/
theorem read_write_fillIndex_congr {s t : State} (h : SameMessage s t) (b : Byte) {a : Nat} (ha : a ≤ s.fillIndex) :
    (s.pb.write s.fillIndex b).read a = (t.pb.write t.fillIndex b).read a := by
  obtain ⟨-, hpl, -, -, -, -, hread⟩ := h
  rw [show t.fillIndex = s.fillIndex from congrArg BitVec.toNat hpl.symm, Memory.read_write, Memory.read_write]
  split
  · rfl
  · exact hread a (lt_of_le_of_ne ha ‹_›)

/-- The padding takes only the bytes below `PL` from `PB` (R104). -/
theorem finalBlocks_congr {s t : State} (h : SameMessage s t) : finalBlocks s = finalBlocks t := by
  obtain ⟨-, hpl, htbl, -, -, -, hread⟩ := h
  have hfill : t.fillIndex = s.fillIndex := congrArg BitVec.toNat hpl.symm
  have hlen : t.encodedLength = s.encodedLength := by rw [State.encodedLength, State.encodedLength, hfill, htbl]
  have hone : (closeBlock (markedBlock s) (s.fillIndex + 1) s.encodedLength).block? =
      (closeBlock (markedBlock t) (t.fillIndex + 1) t.encodedLength).block? := by
    refine Memory.block?_congr fun a ha => ?_
    rw [closeBlock_markedBlock_read, closeBlock_markedBlock_read, hfill, hlen]
    split
    · rfl
    · split
      · rfl
      · split
        · rfl
        · exact hread a (show a < s.fillIndex by omega)
  have hfirst : ((markedBlock s).zeroUpTo (s.fillIndex + 1) 64).block? =
      ((markedBlock t).zeroUpTo (t.fillIndex + 1) 64).block? := by
    refine Memory.block?_congr fun a ha => ?_
    rw [markedBlock_zeroUpTo_read, markedBlock_zeroUpTo_read, hfill]
    split
    · rfl
    · split
      · rfl
      · exact hread a (show a < s.fillIndex by omega)
  have hsecond : (closeBlock ((markedBlock s).zeroUpTo (s.fillIndex + 1) 64) 0 s.encodedLength).block? =
      (closeBlock ((markedBlock t).zeroUpTo (t.fillIndex + 1) 64) 0 t.encodedLength).block? := by
    refine Memory.block?_congr fun a ha => ?_
    rw [closeBlock_read, closeBlock_read, hlen]
    split
    · rfl
    · rw [if_pos (by omega), if_pos (by omega)]
  simp only [finalBlocks, hone, hfirst, hsecond, hfill]

theorem execInit_sameMessage {s t s' : State} (h : SameMessage s t) (hdg : s.dg = t.dg) (hs' : execInit s = .next s') :
    ∃ t', execInit t = .next t' ∧ SameMessage s' t' ∧ s'.dg = t'.dg := by
  have ⟨_, _, _, _, hfault, hix, _⟩ := h
  obtain ⟨hs, rfl⟩ | ⟨hs, rfl⟩ := execInit_cases hs'
  · exact ⟨t, unlessFaulted_faulted _ (hfault ▸ hs), h, hdg⟩
  · exact ⟨_, execInit_clear (hfault ▸ hs), sameMessage_of_pb_nil rfl rfl rfl rfl hfault hix rfl rfl, rfl⟩

theorem absorbByte_sameMessage {b : Byte} {s t s' : State} (h : SameMessage s t) (hdg : s.dg = t.dg)
    (hs' : absorbByte b s = .next s') :
    ∃ t', absorbByte b t = .next t' ∧ SameMessage s' t' ∧ s'.dg = t'.dg := by
  have hstored {a : Nat} := read_write_fillIndex_congr h b (a := a)
  obtain ⟨hh, hpl, htbl, -, hfault, hix, -⟩ := h
  obtain ⟨hlt, rfl⟩ | ⟨hge, blk, hblk, rfl⟩ := absorbByte_cases hs'
  · refine ⟨_, absorbByte_more b (hpl ▸ hlt), ⟨hh, congrArg (· + 1) hpl, htbl, rfl, hfault, hix, fun a ha => ?_⟩, hdg⟩
    have ha' : a < (s.pl + 1).toNat := ha
    exact hstored (show a ≤ s.pl.toNat by bv_omega)
  · have hfull : s.fillIndex = 63 := by
      have hpl63 : s.pl = 63 := by bv_omega
      rw [State.fillIndex, hpl63]
      rfl
    have hblk' : (t.pb.write t.fillIndex b).block? = some blk :=
      (Memory.block?_congr fun a ha => hstored (by omega)).symm.trans hblk
    refine ⟨_, (absorbByte_last b (hpl ▸ hge)).trans (completeBlock_some hblk'), ?_, hdg⟩
    exact sameMessage_of_pb_nil (by rw [hh]) rfl (congrArg (· + 512) htbl) rfl hfault hix rfl rfl

theorem execUpd_sameMessage {b : Byte} {s t s' : State} (h : SameMessage s t) (hdg : s.dg = t.dg)
    (hs' : execUpd b s = .next s') : ∃ t', execUpd b t = .next t' ∧ SameMessage s' t' ∧ s'.dg = t'.dg := by
  have ⟨_, hpl, htbl, hphase, hfault, _, _⟩ := h
  have hceil : s.atCeiling = t.atCeiling := by rw [State.atCeiling, State.atCeiling, hpl, htbl]
  obtain ⟨hs, rfl⟩ | ⟨hs, hp, rfl⟩ | ⟨hs, hp, hc, rfl⟩ | ⟨hs, hp, hc, habs⟩ := execUpd_cases hs'
  · exact ⟨t, unlessFaulted_faulted _ (hfault ▸ hs), h, hdg⟩
  · exact ⟨_, execUpd_invalidState b (hfault ▸ hs) (hphase ▸ hp), sameMessage_raise h _, hdg⟩
  · exact ⟨_, execUpd_overflows b (hfault ▸ hs) (hphase ▸ hp) (hceil ▸ hc), sameMessage_raise h _, hdg⟩
  · obtain ⟨t', ht', hrest⟩ := absorbByte_sameMessage h hdg habs
    exact ⟨t', (execUpd_absorbs b (hfault ▸ hs) (hphase ▸ hp) (hceil ▸ hc)).trans ht', hrest⟩

theorem execFinal_sameMessage {s t s' : State} (h : SameMessage s t) (hdg : s.dg = t.dg)
    (hs' : execFinal s = .next s') : ∃ t', execFinal t = .next t' ∧ SameMessage s' t' ∧ s'.dg = t'.dg := by
  have ⟨hh, _, _, hphase, hfault, hix, _⟩ := h
  obtain ⟨hs, rfl⟩ | ⟨hs, hp, rfl⟩ | ⟨hs, hp, bs, hbs, rfl⟩ := execFinal_cases hs'
  · exact ⟨t, unlessFaulted_faulted _ (hfault ▸ hs), h, hdg⟩
  · exact ⟨_, execFinal_invalidState (hfault ▸ hs) (hphase ▸ hp), sameMessage_raise h _, hdg⟩
  · rw [finalBlocks_congr h] at hbs
    refine ⟨_, execFinal_some (hfault ▸ hs) (hphase ▸ hp) hbs, ?_, ?_⟩
    · exact sameMessage_of_pb_nil (by rw [finishMessage_h, finishMessage_h, hh]) rfl
        (congrArg Config.freeLength hix) rfl hfault (congrArg (· + 1) hix) rfl rfl
    · rw [finishMessage_dg, finishMessage_dg, hh]

/-- Settles O28: each command takes the same branch from both states, and what it reads of `PB` lies below `PL` or was
stored by it. -/
theorem staleBytesAreNotRead : Obligations.StaleBytesAreNotRead := by
  intro i s t s' h hdg hs'
  cases i with
  | init => exact execInit_sameMessage h hdg hs'
  | upd b => exact execUpd_sameMessage h hdg hs'
  | final => exact execFinal_sameMessage h hdg hs'

end Sys2Proof.Machine
end

section
/-! Proofs about `compress` of spec 43_compress.md: rotation and shift (R113, R114), the functions over words (R115 to
R120), the round constants (R121) and the rounds (R125 to R127). -/

namespace Sys2Proof.Machine

/-! ### Rotation and shift -/

theorem shr_getLsbD (n : Nat) (x : Word) (i : Nat) : (shr n x).getLsbD i = x.getLsbD (i + n) := by
  rw [shr, BitVec.getLsbD_ushiftRight, Nat.add_comm]

/-- Bits above `n` move down; the lowest `n` come in at the top (R113). -/
theorem rotr_getLsbD {n i : Nat} (x : Word) (hn : n ≤ 31) (hi : i < 32) :
    (rotr n x).getLsbD i = x.getLsbD ((i + n) % 32) := by
  rw [rotr, BitVec.getLsbD_or, shr_getLsbD, BitVec.getLsbD_shiftLeft]
  by_cases hlow : i + n < 32
  · rw [Nat.mod_eq_of_lt hlow]
    simp; omega
  · rw [BitVec.getLsbD_of_ge x (i + n) (by omega), show (i + n) % 32 = i - (32 - n) by omega]
    simp; omega

/-- Settles O29: the bits of the formula, the stretch that stays and the stretch that comes round. -/
theorem rotateAndShift : Obligations.RotateAndShift := by
  intro n x _ hn
  refine ⟨fun i hi => rotr_getLsbD x hn hi, ?_, ?_⟩
  · simp [rotr, shr, BitVec.toNat_ushiftRight, BitVec.toNat_shiftLeft, Nat.shiftRight_eq_div_pow, Nat.shiftLeft_eq]
  · rw [shr, BitVec.toNat_ushiftRight, Nat.shiftRight_eq_div_pow]

/-! ### The functions over words -/

/-- Settles O30: the exclusive or of three rotations, or of two and a shift, bit by bit. -/
theorem sigmaFunctionsByBits : Obligations.SigmaFunctionsByBits := by
  intro x i hi
  have hrotr (n : Nat) (hn : n ≤ 31) : (rotr n x).getLsbD i = x.getLsbD ((i + n) % 32) := rotr_getLsbD x hn hi
  refine ⟨?_, ?_, ?_, ?_⟩
  · rw [smallSigma0, BitVec.getLsbD_xor, BitVec.getLsbD_xor, hrotr 7 (by decide), hrotr 18 (by decide), shr_getLsbD]
  · rw [smallSigma1, BitVec.getLsbD_xor, BitVec.getLsbD_xor, hrotr 17 (by decide), hrotr 19 (by decide), shr_getLsbD]
  · rw [bigSigma0, BitVec.getLsbD_xor, BitVec.getLsbD_xor, hrotr 2 (by decide), hrotr 13 (by decide),
      hrotr 22 (by decide)]
  · rw [bigSigma1, BitVec.getLsbD_xor, BitVec.getLsbD_xor, hrotr 6 (by decide), hrotr 11 (by decide),
      hrotr 25 (by decide)]

theorem ch_getLsbD (x y z : Word) {i : Nat} (hi : i < 32) :
    (ch x y z).getLsbD i = if x.getLsbD i then y.getLsbD i else z.getLsbD i := by
  simp only [ch, BitVec.getLsbD_xor, BitVec.getLsbD_and, BitVec.getLsbD_not, hi]
  cases x.getLsbD i <;> simp

theorem maj_getLsbD_iff (x y z : Word) (i : Nat) :
    (maj x y z).getLsbD i = true ↔ 2 ≤ (x.getLsbD i).toNat + (y.getLsbD i).toNat + (z.getLsbD i).toNat := by
  simp only [maj, BitVec.getLsbD_xor, BitVec.getLsbD_and]
  generalize x.getLsbD i = a, y.getLsbD i = b, z.getLsbD i = c
  revert a b c
  decide

/-- Settles O31: both functions work on each bit by itself. -/
theorem chooseAndMajority : Obligations.ChooseAndMajority :=
  fun x y z => ⟨rfl, rfl, fun i hi => ⟨ch_getLsbD x y z hi, maj_getLsbD_iff x y z i⟩⟩

/-! ### The round constants -/

/-- The first 64 primes, which are those up to 311 (R121). -/
def roundPrimes : List Nat :=
  [2, 3, 5, 7, 11, 13, 17, 19, 23, 29, 31, 37, 41, 43, 47, 53, 59, 61, 67, 71, 73, 79, 83, 89, 97, 101, 103, 107, 109,
    113, 127, 131, 137, 139, 149, 151, 157, 163, 167, 173, 179, 181, 191, 193, 197, 199, 211, 223, 227, 229, 233, 239,
    241, 251, 257, 263, 269, 271, 277, 281, 283, 293, 307, 311]

theorem mem_roundPrimes_iff (p : Nat) : p ∈ roundPrimes ↔ p ≤ 311 ∧ p.Prime := by
  have hle : ∀ p ∈ roundPrimes, p ≤ 311 := by decide
  have hprime : ∀ p ≤ 311, (p ∈ roundPrimes ↔ p.Prime) := by decide +kernel
  constructor
  · exact fun h => ⟨hle p h, (hprime p (hle p h)).mp h⟩
  · exact fun ⟨h, hp⟩ => (hprime p h).mpr hp

/-- The integer cube root of `p * 2^96` where `k` is the 32 fractional bits of the cube root of `p`: its whole part is
the number of cubes from 1 up to `p`, of which there are at most six for `p ≤ 311`. -/
def roundRoot (p : Nat) (k : Word) : Nat := ((List.range 6).filter fun c => (c + 1) ^ 3 ≤ p).length * 2 ^ 32 + k.toNat

theorem roundRoot_isRoot : ∀ pk ∈ roundPrimes.zip roundConstants,
    roundRoot pk.1 pk.2 ^ 3 ≤ pk.1 * 2 ^ 96 ∧ pk.1 * 2 ^ 96 < (roundRoot pk.1 pk.2 + 1) ^ 3 := by
  decide +kernel

theorem roundRoot_mod (p : Nat) (k : Word) : k.toNat = roundRoot p k % 2 ^ 32 := by
  rw [roundRoot, Nat.mul_add_mod_self_right, Nat.mod_eq_of_lt k.isLt]

/-- Settles O32: each round constant is the fraction of a cube root of its prime. -/
theorem roundConstantsFromPrimes : Obligations.RoundConstantsFromPrimes := by
  refine ⟨roundPrimes, rfl, by decide, mem_roundPrimes_iff, roundConstants_length, fun t p k hp hk => ?_⟩
  have hmem : (p, k) ∈ roundPrimes.zip roundConstants :=
    List.mem_of_getElem? (List.getElem?_zip_eq_some.mpr ⟨hp, hk⟩)
  obtain ⟨hle, hlt⟩ := roundRoot_isRoot _ hmem
  exact ⟨roundRoot p k, hle, hlt, roundRoot_mod p k⟩

/-! ### The rounds -/

/-- The working set before round `t` (R125, R126). -/
def workingBefore (hin : Vector Word 8) (blk : Block) (t : Nat) : Working :=
  runRounds ((roundConstants.zip (schedule blk)).take t) (loadWorking hin)

theorem runRounds_append (kws kws' : List (Word × Word)) (s : Working) :
    runRounds (kws ++ kws') s = runRounds kws' (runRounds kws s) := List.foldl_append

/-- Round `t` takes `K[t]` and `W[t]`. -/
theorem workingBefore_succ (hin : Vector Word 8) {blk : Block} {t : Nat} {k w : Word}
    (hk : roundConstants[t]? = some k) (hw : (schedule blk)[t]? = some w) :
    workingBefore hin blk (t + 1) = shaRound (workingBefore hin blk t) k w := by
  have hkw : (roundConstants.zip (schedule blk))[t]? = some (k, w) := List.getElem?_zip_eq_some.mpr ⟨hk, hw⟩
  rw [workingBefore, List.take_add_one, hkw, runRounds_append]
  rfl

theorem compress_eq_addBack_workingBefore (hin : Vector Word 8) (blk : Block) :
    compress hin blk = addBack hin (workingBefore hin blk 64) := by
  have hlength : (roundConstants.zip (schedule blk)).length = 64 := by simp
  rw [compress_eq, workingBefore, List.take_of_length_le hlength.le]

/-- Settles O35: the working sets before the rounds. -/
theorem compressRunsSixtyFourRounds : Obligations.CompressRunsSixtyFourRounds := by
  intro hin blk
  refine ⟨workingBefore hin blk, rfl, rfl, rfl, rfl, rfl, rfl, rfl, rfl, fun t k w hk hw => ?_, ?_⟩
  · exact ⟨_, _, rfl, rfl, workingBefore_succ hin hk hw⟩
  · exact compress_eq_addBack_workingBefore hin blk

end Sys2Proof.Machine
end

section
/-! Proofs about the machine's invariant: it holds after reset, every step keeps it, and no step stops where it holds. -/

namespace Sys2Proof.Machine

open Sys2Proof.Safety

/-! ### The states the commands leave -/

theorem inv_afterReset (n : Nat) (ps : List Pins) : Inv (State.afterReset n ps) where
  blkWf := Memory.wf_nil 64
  dgWf := Memory.wf_nil 32
  blkEmpty _ := rfl
  blkHeld := nofun
  tblWhole := nofun
  fresh := nofun
  drained := nofun
  noDigest _ := rfl
  misusePhase := nofun
  overflowAt := nofun

/-- Settles O45: `State.reset` is the state of reset number 0. -/
theorem resetMeetsTheInvariant : Obligations.ResetMeetsTheInvariant := inv_afterReset 0 []

/-- The samples are not the invariant's business. -/
theorem inv_pins {s : State} (h : Inv s) (ps : List Pins) : Inv { s with pins := ps } :=
  ⟨h.blkWf, h.dgWf, h.blkEmpty, h.blkHeld, h.tblWhole, h.fresh, h.drained, h.noDigest, h.misusePhase, h.overflowAt⟩

theorem inv_raise {s : State} {f : FaultCode} (h : Inv s)
    (hmisuse : f = .invalidStateError → s.phase = .uninitialized ∨ s.phase = .finalized)
    (hoverflow : f = .lengthOverflow → s.phase = .absorbing ∧ s.pl = 63 ∧ s.tbl = tblCeiling) : Inv (s.raise f) :=
  ⟨h.blkWf, h.dgWf, h.blkEmpty, h.blkHeld, h.tblWhole, h.fresh, h.drained, h.noDigest, hmisuse, hoverflow⟩

theorem inv_startMessage {s : State} (hs : s.fault = .none) : Inv (startMessage s) where
  blkWf := Memory.wf_nil 64
  dgWf := Memory.wf_nil 32
  blkEmpty := nofun
  blkHeld _ := rfl
  tblWhole _ := rfl
  fresh _ := ⟨rfl, rfl, rfl⟩
  drained := nofun
  noDigest _ := rfl
  misusePhase hf := nomatch hs.symm.trans hf
  overflowAt hf := nomatch hs.symm.trans hf

theorem inv_finishMessage {s : State} (hs : s.fault = .none) (h : Vector Word 8) : Inv (finishMessage s h) where
  blkWf := Memory.wf_nil 64
  dgWf := emitDigest_wf h
  blkEmpty := nofun
  blkHeld := nofun
  tblWhole := nofun
  fresh := nofun
  drained _ := ⟨rfl, rfl, rfl⟩
  noDigest hp := absurd rfl hp
  misusePhase hf := nomatch hs.symm.trans hf
  overflowAt hf := nomatch hs.symm.trans hf

theorem phase_ne_finalized_of_inMessage {s : State} (h : inMessage s) : s.phase ≠ .finalized := by
  obtain hp | hp := h <;> simp [hp]

/-- A byte more is held, right after those held before. -/
theorem inv_append {s : State} (h : Inv s) (hs : s.fault = .none) (hm : inMessage s) (hpl : s.pl < 63) (b : Byte) :
    Inv { s with pb := s.pb.write s.fillIndex b, phase := .absorbing, pl := s.pl + 1 } where
  blkWf := Memory.wf_write h.blkWf (fillIndex_lt s) b
  dgWf := h.dgWf
  blkEmpty := nofun
  blkHeld _ := by
    have hcount : (s.pl + 1).toNat = s.fillIndex + 1 := by
      rw [State.fillIndex]
      bv_omega
    exact (Memory.write_at_end (h.blkHeld hm) b).trans (congrArg List.range hcount.symm)
  tblWhole _ := h.tblWhole hm
  fresh := nofun
  drained := nofun
  noDigest _ := h.noDigest (phase_ne_finalized_of_inMessage hm)
  misusePhase hf := nomatch hs.symm.trans hf
  overflowAt hf := nomatch hs.symm.trans hf

/-- `PB` is empty again, and `TBL` counts one more whole block. -/
theorem inv_completed {s : State} (h : Inv s) (hs : s.fault = .none) (hm : inMessage s) (x : Vector Word 8) :
    Inv { s with h := x, tbl := s.tbl + 512, pl := 0, pb := [], phase := .absorbing } where
  blkWf := Memory.wf_nil 64
  dgWf := h.dgWf
  blkEmpty := nofun
  blkHeld _ := rfl
  tblWhole _ := by
    have hwhole : s.tbl.toNat % 512 = 0 := h.tblWhole hm
    change (s.tbl + 512).toNat % 512 = 0
    rw [BitVec.toNat_add, show (512 : DWord).toNat = 512 from rfl]
    omega
  fresh := nofun
  drained := nofun
  noDigest _ := h.noDigest (phase_ne_finalized_of_inMessage hm)
  misusePhase hf := nomatch hs.symm.trans hf
  overflowAt hf := nomatch hs.symm.trans hf

/-! ### Every step keeps the invariant -/

/-- A fresh message is not at the ceiling. -/
theorem absorbing_of_atCeiling {s : State} (h : Inv s) (hp : s.phase.takesData = true) (hc : s.atCeiling = true) :
    s.phase = .absorbing := by
  obtain hinit | habs := (takesData_iff s.phase).mp hp
  · obtain ⟨-, hpl, -⟩ := h.fresh hinit
    rw [((atCeiling_iff s).mp hc).1] at hpl
    exact absurd hpl (by decide)
  · exact habs

theorem absorbByte_keeps_inv {b : Byte} {s t : State} (h : Inv s) (hs : s.fault = .none) (hm : inMessage s)
    (ht : absorbByte b s = .next t) : Inv t := by
  obtain ⟨hpl, rfl⟩ | ⟨-, blk, -, rfl⟩ := absorbByte_cases ht
  · exact inv_append h hs hm hpl b
  · exact inv_completed h hs hm _

theorem exec_keeps_inv {i : Instr} {s t : State} (h : Inv s) (ht : exec i s = .next t) : Inv t := by
  cases i with
  | init =>
    obtain ⟨-, rfl⟩ | ⟨hs, rfl⟩ := execInit_cases ht
    · exact h
    · exact inv_startMessage hs
  | upd b =>
    obtain ⟨-, rfl⟩ | ⟨-, hp, rfl⟩ | ⟨-, hp, hc, rfl⟩ | ⟨hs, hp, -, habs⟩ := execUpd_cases ht
    · exact h
    · exact inv_raise h (fun _ => (takesData_false_iff s.phase).mp hp) nofun
    · exact inv_raise h nofun fun _ => ⟨absorbing_of_atCeiling h hp hc, (atCeiling_iff s).mp hc⟩
    · exact absorbByte_keeps_inv h hs ((takesData_iff s.phase).mp hp) habs
  | final =>
    obtain ⟨-, rfl⟩ | ⟨-, hp, rfl⟩ | ⟨hs, -, bs, -, rfl⟩ := execFinal_cases ht
    · exact h
    · exact inv_raise h (fun _ => (takesData_false_iff s.phase).mp hp) nofun
    · exact inv_finishMessage hs _

theorem acceptWord_keeps_inv {w : CmdWord} {s t : State} (h : Inv s) (ht : acceptWord w s = .next t) : Inv t := by
  obtain ⟨i, -, hexec⟩ | ⟨why, -, hill⟩ := acceptWord_cases ht
  · exact exec_keeps_inv h hexec
  · obtain ⟨-, rfl⟩ | ⟨-, rfl⟩ := illegalCommand_cases hill
    · exact h
    · exact inv_raise h nofun nofun

theorem takeSample_keeps_inv {p : Pins} {s t : State} (h : Inv s) (ht : takeSample p s = .next t) : Inv t := by
  obtain ⟨-, rfl⟩ | ⟨-, -, hword⟩ | ⟨-, -, rfl⟩ := takeSample_cases ht
  · exact inv_afterReset _ _
  · exact acceptWord_keeps_inv h hword
  · exact h

/-- Settles O46: a step takes no sample or one, and each thing a sample can do keeps the invariant. -/
theorem stepKeepsTheInvariant : Obligations.StepKeepsTheInvariant := by
  intro s t h ht
  obtain ⟨-, rfl⟩ | ⟨p, rest, -, hsample⟩ := step_cases ht
  · exact h
  · exact takeSample_keeps_inv (inv_pins h rest) hsample

/-! ### No step stops -/

/-- The bytes below `PL` hold values (R14). -/
theorem held_of_inv {s : State} (h : Inv s) (hm : inMessage s) : ∀ a < s.fillIndex, s.pb.read a ≠ none := by
  intro a ha
  rw [← Memory.mem_addresses_iff, h.blkHeld hm]
  exact List.mem_range.mpr ha

theorem absorbByte_next_of_held {s : State} (b : Byte) (hheld : ∀ a < s.fillIndex, s.pb.read a ≠ none) :
    ∃ t, absorbByte b s = .next t := by
  by_cases hpl : s.pl < 63
  · exact ⟨_, absorbByte_more b hpl⟩
  · have hfull : s.fillIndex = 63 := by
      rw [State.fillIndex]
      bv_omega
    rw [hfull] at hheld
    obtain ⟨blk, hblk, -, -⟩ := Memory.block?_write_last b hheld
    rw [← hfull] at hblk
    exact ⟨_, (absorbByte_last b hpl).trans (completeBlock_some hblk)⟩

theorem exec_next_of_inv (i : Instr) {s : State} (h : Inv s) : ∃ t, exec i s = .next t := by
  by_cases hs : s.fault = .none
  · cases hp : s.phase.takesData with
    | true =>
      have hheld := held_of_inv h ((takesData_iff s.phase).mp hp)
      cases i with
      | init => exact ⟨_, execInit_clear hs⟩
      | upd b =>
        cases hc : s.atCeiling with
        | true => exact ⟨_, execUpd_overflows b hs hp hc⟩
        | false =>
          obtain ⟨t, ht⟩ := absorbByte_next_of_held b hheld
          exact ⟨t, (execUpd_absorbs b hs hp hc).trans ht⟩
      | final =>
        obtain ⟨bs, hbs⟩ := exists_finalBlocks hheld
        exact ⟨_, execFinal_some hs hp hbs⟩
    | false =>
      cases i with
      | init => exact ⟨_, execInit_clear hs⟩
      | upd b => exact ⟨_, execUpd_invalidState b hs hp⟩
      | final => exact ⟨_, execFinal_invalidState hs hp⟩
  · exact ⟨s, exec_faulted i hs⟩

theorem illegalCommand_next (s : State) : ∃ t, illegalCommand s = .next t := by
  by_cases hs : s.fault = .none
  · exact ⟨_, unlessFaulted_clear _ hs⟩
  · exact ⟨_, unlessFaulted_faulted _ hs⟩

theorem acceptWord_next_of_inv (w : CmdWord) {s : State} (h : Inv s) : ∃ t, acceptWord w s = .next t := by
  cases hd : decode w with
  | instr i =>
    rw [acceptWord_instr s hd]
    exact exec_next_of_inv i h
  | illegal why =>
    rw [acceptWord_illegalWord s hd]
    exact illegalCommand_next s

/-- Settles O47: a sample that is no reset and no accepted word changes nothing, and a word completes under `Inv`. -/
theorem stepAlwaysCompletes : Obligations.StepAlwaysCompletes := by
  intro s h
  cases hp : s.pins with
  | nil => exact ⟨s, step_nil hp⟩
  | cons p rest =>
    rw [step_cons hp]
    cases hr : p.rst with
    | true => exact ⟨_, takeSample_reset _ hr⟩
    | false =>
      cases hv : p.cmdValid with
      | true =>
        rw [takeSample_command _ hr hv]
        exact acceptWord_next_of_inv p.cmd (inv_pins h rest)
      | false => exact ⟨_, takeSample_idle _ hr hv⟩

end Sys2Proof.Machine
end

section
/-! Proofs about the phases and the accumulator of spec 10_state.md: the table of transitions (R19), success (R22, R169),
what changes `H` (R11), and what is not seen of the registers before `INIT` (R186). -/

namespace Sys2Proof.Machine

open Sys2Proof.Safety

/-! ### The phases (R19) -/

theorem execUpd_phase_of_inMessage {b : Byte} {s t : State} (hs : s.fault = .none) (h : execUpd b s = .next t)
    (hm : inMessage s) :
    (t.phase = .absorbing ∧ t.fault = .none) ∨ (t.phase = s.phase ∧ t.fault = .lengthOverflow) := by
  obtain ⟨hne, -⟩ | ⟨-, hp, -⟩ | ⟨-, -, -, rfl⟩ | ⟨-, -, -, habs⟩ := execUpd_cases h
  · exact absurd hs hne
  · rw [(takesData_iff s.phase).mpr hm] at hp
    cases hp
  · exact .inr ⟨rfl, rfl⟩
  · exact .inl ⟨absorbByte_phase habs, (absorbByte_fault habs).trans hs⟩

/-- A message just begun has room for its first byte. -/
theorem execUpd_fault_of_initialized {b : Byte} {s t : State} (hs : s.fault = .none) (h : execUpd b s = .next t)
    (hinv : Inv s) (hp : s.phase = .initialized) : t.fault = .none := by
  obtain ⟨-, hf⟩ | ⟨-, hf⟩ := execUpd_phase_of_inMessage hs h (.inl hp)
  · exact hf
  · have hc := atCeiling_of_execUpd_fault_lengthOverflow hs h hf
    have habs := absorbing_of_atCeiling hinv ((takesData_iff s.phase).mpr (.inl hp)) hc
    cases hp.symm.trans habs

theorem execFinal_phase_of_inMessage {s t : State} (hs : s.fault = .none) (h : execFinal s = .next t)
    (hm : inMessage s) : t.phase = .finalized ∧ t.fault = .none := by
  have ht := execFinal_fault_none hs ((takesData_iff s.phase).mpr hm) h
  obtain ⟨h', rfl⟩ := finishes_of_execFinal_fault_none h ht
  exact ⟨rfl, ht⟩

/-- Settles O41, a row of the table at a time. -/
theorem phaseTransitionTable : Obligations.PhaseTransitionTable := by
  refine fun s t hs => ⟨fun h => ?_, fun b h => ?_, fun b h hp => ?_, fun h => ?_, fun h hp => ?_, fun b h => ?_⟩
  · obtain rfl := Host.Outcome.next.inj ((execInit_clear hs).symm.trans h)
    exact ⟨rfl, hs⟩
  · exact execUpd_phase_of_inMessage hs h
  · obtain rfl := Host.Outcome.next.inj
      ((execUpd_invalidState b hs ((takesData_false_iff s.phase).mpr hp)).symm.trans h)
    exact ⟨rfl, rfl⟩
  · exact execFinal_phase_of_inMessage hs h
  · obtain rfl := Host.Outcome.next.inj
      ((execFinal_invalidState hs ((takesData_false_iff s.phase).mpr hp)).symm.trans h)
    exact ⟨rfl, rfl⟩
  · exact execUpd_fault_of_initialized hs h

/-- What `FINAL` computes does not depend on the phase, once it is legal. -/
theorem finishBlocks_phase (s : State) (p : Phase) : finishBlocks { s with phase := p } = finishBlocks s := by
  unfold finishBlocks
  rw [show finalBlocks { s with phase := p } = finalBlocks s from rfl]
  cases finalBlocks s <;> rfl

/-- Settles O42: each command that is legal in a message sets the phase it leaves, whatever phase it found. -/
theorem initializedAndAbsorbingActAlike : Obligations.InitializedAndAbsorbingActAlike := by
  intro i s hinv hs hp
  have htakes : s.phase.takesData = true := (takesData_iff s.phase).mpr (.inl hp)
  cases i with
  | init => exact (execInit_clear hs).trans (execInit_clear (s := { s with phase := .absorbing }) hs).symm
  | upd b =>
    have hpl : s.pl < 63 := by
      obtain ⟨-, hzero, -⟩ := hinv.fresh hp
      rw [hzero]
      decide
    exact (execUpd_more b hs htakes hpl).trans (execUpd_more (s := { s with phase := .absorbing }) b hs rfl hpl).symm
  | final =>
    calc execFinal s
        = finishBlocks s := execFinal_finishes hs htakes
      _ = finishBlocks { s with phase := .absorbing } := (finishBlocks_phase s .absorbing).symm
      _ = execFinal { s with phase := .absorbing } := (execFinal_finishes (s := { s with phase := .absorbing }) hs rfl).symm

/-! ### Success (R22, R169) -/

theorem digestValid_iff_succeeded (s : State) : s.digestValid = true ↔ Succeeded s := by
  simp [State.digestValid, Succeeded]

/-- Settles O44: the port is open only on success, and then `DG` is the whole accumulator. -/
theorem digestValidIsSuccess : Obligations.DigestValidIsSuccess := by
  refine fun s => ⟨digestValid_iff_succeeded s, fun h => if_neg (ne_true_of_eq_false h), fun hinv h => ?_⟩
  obtain ⟨hp, -⟩ := (digestValid_iff_succeeded s).mp h
  obtain ⟨-, -, hdg⟩ := hinv.drained hp
  exact ⟨_, readDigest_of_digestValid h hdg⟩

/-! ### What changes the accumulator (R11) -/

/-- What a command that does not leave `H` alone has done to it. -/
def LoadsOrCompresses (i : Instr) (s t : State) : Prop :=
  s.fault = .none ∧ t.fault = .none ∧
    ((i = .init ∧ t.phase = .initialized ∧ t.h = initialHash) ∨
    (∃ (b : Byte) (blk : Block), i = .upd b ∧ inMessage s ∧ s.pl = 63 ∧
      (s.pb.write s.fillIndex b).block? = some blk ∧ t.h = compress s.h blk) ∨
    (∃ blks : List Block, i = .final ∧ inMessage s ∧ finalBlocks s = some blks ∧ t.h = blks.foldl compress s.h))

theorem exec_h_cases {i : Instr} {s t : State} (h : exec i s = .next t) : t.h = s.h ∨ LoadsOrCompresses i s t := by
  cases i with
  | init =>
    obtain ⟨-, rfl⟩ | ⟨hs, rfl⟩ := execInit_cases h
    · exact .inl rfl
    · exact .inr ⟨hs, hs, .inl ⟨rfl, rfl, rfl⟩⟩
  | upd b =>
    obtain ⟨-, rfl⟩ | ⟨-, -, rfl⟩ | ⟨-, -, -, rfl⟩ | ⟨hs, hp, -, habs⟩ := execUpd_cases h
    · exact .inl rfl
    · exact .inl rfl
    · exact .inl rfl
    · obtain ⟨-, rfl⟩ | ⟨hpl, blk, hblk, rfl⟩ := absorbByte_cases habs
      · exact .inl rfl
      · have hfull : s.pl = 63 := Classical.not_not.mp fun hne => hpl ((pl_lt_63_iff s).mpr hne)
        exact .inr ⟨hs, hs, .inr (.inl ⟨b, blk, rfl, (takesData_iff s.phase).mp hp, hfull, hblk, rfl⟩)⟩
  | final =>
    obtain ⟨-, rfl⟩ | ⟨-, -, rfl⟩ | ⟨hs, hp, bs, hbs, rfl⟩ := execFinal_cases h
    · exact .inl rfl
    · exact .inl rfl
    · exact .inr ⟨hs, hs, .inr (.inr ⟨bs, rfl, (takesData_iff s.phase).mp hp, hbs, rfl⟩)⟩

theorem acceptWord_h_cases {w : CmdWord} {s t : State} (h : acceptWord w s = .next t) :
    t.h = s.h ∨ ∃ i, decode w = .instr i ∧ LoadsOrCompresses i s t := by
  obtain ⟨i, hd, hexec⟩ | ⟨why, -, hill⟩ := acceptWord_cases h
  · exact (exec_h_cases hexec).imp_right fun hi => ⟨i, hd, hi⟩
  · obtain ⟨-, rfl⟩ | ⟨-, rfl⟩ := illegalCommand_cases hill
    · exact .inl rfl
    · exact .inl rfl

/-- Settles O36: of the samples that are no reset only an accepted command moves `H`, and it compresses or loads `IV`. -/
theorem accumulatorChangesByCompressOnly : Obligations.AccumulatorChangesByCompressOnly := by
  intro s t h
  obtain ⟨hnil, rfl⟩ | ⟨p, rest, hp, hsample⟩ := step_cases h
  · exact .inl ⟨hnil, rfl⟩
  · refine .inr ⟨p, rest, hp, ?_⟩
    obtain ⟨hr, -⟩ | ⟨hr, hv, hword⟩ | ⟨-, -, rfl⟩ := takeSample_cases hsample
    · exact .inl hr
    · obtain hh | ⟨i, hd, hs, ht, hcases⟩ := acceptWord_h_cases hword
      · exact .inr (.inl hh)
      · refine .inr (.inr ⟨hr, hv, hs, ht, ?_⟩)
        obtain ⟨rfl, hinit⟩ | ⟨b, blk, rfl, hupd⟩ | ⟨blks, rfl, hfinal⟩ := hcases
        · exact .inl ⟨hd, hinit⟩
        · exact .inr (.inl ⟨b, blk, hd, hupd⟩)
        · exact .inr (.inr ⟨blks, hd, hfinal⟩)
    · exact .inr (.inl rfl)

/-! ### Before `INIT` (R186) -/

/-- From `Uninitialized` a word starts a message, or at most raises its fault. -/
theorem acceptWord_uninitialized {s : State} (w : CmdWord) (hp : s.phase = .uninitialized) (hs : s.fault = .none) :
    acceptWord w s =
      .next (if decode w = .instr .init then startMessage s else s.raise (raisedFault s (decode w))) := by
  have hwrong : s.phase.takesData = false := (takesData_false_iff s.phase).mpr (.inl hp)
  cases hd : decode w with
  | instr i =>
    rw [acceptWord_instr s hd]
    cases i with
    | init => exact execInit_clear hs
    | upd b =>
      simp only [raisedFault, hwrong]
      exact execUpd_invalidState b hs hwrong
    | final =>
      simp only [raisedFault, hwrong]
      exact execFinal_invalidState hs hwrong
  | illegal why =>
    rw [acceptWord_illegalWord s hd]
    exact unlessFaulted_clear _ hs

theorem raisedFault_uninitialized {s t : State} (d : Decoded) (hs : s.phase = .uninitialized)
    (ht : t.phase = .uninitialized) : raisedFault s d = raisedFault t d := by
  rcases d with (_ | b | _) | why
  case instr.init => rfl
  case instr.upd => simp only [raisedFault, hs, ht, Phase.takesData, Bool.false_eq_true, if_false]
  case instr.final => simp only [raisedFault, hs, ht]
  case illegal => rfl

theorem startMessage_congr {s t : State} (hfault : s.fault = t.fault) (hpins : s.pins = t.pins)
    (hix : s.freeIx = t.freeIx) : startMessage s = startMessage t := by
  simp only [startMessage, hfault, hpins, hix]

theorem raise_status_congr {s t : State} (hp : s.phase = t.phase) (f : FaultCode) :
    (s.raise f).status = (t.raise f).status := by
  rw [State.status, State.status, raise_phase, raise_phase, raise_fault, raise_fault, hp]

/-- Settles O9: `INIT` overwrites the four registers, and nothing else a word does from `Uninitialized` reads them. -/
theorem resetContentsAreNotObservable : Obligations.ResetContentsAreNotObservable := by
  intro s t w hs ht hfault hdg hpins hix
  by_cases hnone : s.fault = .none
  · refine ⟨_, _, acceptWord_uninitialized w hs hnone, acceptWord_uninitialized w ht (hfault ▸ hnone), ?_⟩
    rw [raisedFault_uninitialized (decode w) hs ht, startMessage_congr hfault hpins hix]
    split
    · exact ⟨rfl, rfl, fun _ => rfl⟩
    · exact ⟨raise_status_congr (hs.trans ht.symm) _, hdg, fun hne => absurd hs hne⟩
  · refine ⟨s, t, acceptWord_faulted w hnone, acceptWord_faulted w (hfault ▸ hnone), ?_, hdg, fun hne => absurd hs hne⟩
    rw [status_of_phase_fault hs rfl, status_of_phase_fault ht rfl, hfault]

end Sys2Proof.Machine
end

section
/-! Proofs about whole messages of spec 44_oneshot_hex_host.md section 1: the state after absorbing one (R17), its digest
(R136, R138), its chunks (R137), a script offered at the command port (R49, R68), and the self-test (R140). -/

namespace Sys2Proof.Machine

open Sys2Proof.Safety

/-! ### The blocks of a byte string (R138) -/

theorem eq_blockAt {p : List Byte} {j : Nat} {blk : Block} (h : ∀ i : Fin 64, p[64 * j + i.val]? = some blk[i]) :
    blk = blockAt p j := by
  refine Vector.ext fun i hi => ?_
  have hbyte : p[64 * j + i]? = some blk[i] := h ⟨i, hi⟩
  rw [blockAt, Vector.getElem_ofFn, List.getD_eq_getElem?_getD, hbyte, Option.getD_some]

/-- What follows a block does not change it. -/
theorem blockAt_append {p q : List Byte} {j : Nat} (h : 64 * j + 64 ≤ p.length) : blockAt (p ++ q) j = blockAt p j := by
  refine Vector.ext fun i hi => ?_
  simp only [blockAt, Vector.getElem_ofFn]
  exact List.getD_append _ _ _ _ (by omega)

/-- What follows the first `j` blocks does not change their fold. -/
theorem chainValue_append {p q : List Byte} {j : Nat} (h : 64 * j ≤ p.length) :
    chainValue (p ++ q) j = chainValue p j := by
  induction j with
  | zero => rfl
  | succ j ih => rw [chainValue, chainValue, ih (by omega), blockAt_append (by omega)]

/-! ### The state after absorbing a message (R17) -/

/-- The state of a message in progress after the bytes `m` (R17 (c), (d), (e)). -/
structure Absorbed (m : List Byte) (s : State) : Prop where
  counters : HasAbsorbed m.length s
  h : s.h = chainValue m (m.length / 64)
  pending : ∀ j < m.length % 64, s.pb.read j = m[64 * (m.length / 64) + j]?

theorem absorbed_startMessage {s : State} (hs : s.fault = .none) : Absorbed [] (startMessage s) where
  counters := hasAbsorbed_startMessage hs
  h := rfl
  pending _ hj := absurd hj (Nat.not_lt_zero _)

namespace Absorbed

variable {m : List Byte} {s : State}

/-- With the next byte stored, `PB` holds the bytes after the last whole block, up to that byte. -/
theorem read_write (hm : Absorbed m s) (b : Byte) {j : Nat} (hj : j ≤ m.length % 64) :
    (s.pb.write s.fillIndex b).read j = (m ++ [b])[64 * (m.length / 64) + j]? := by
  have hfill : s.fillIndex = m.length % 64 := hm.counters.pl
  rw [Memory.read_write, hfill]
  split
  · rename_i hlast
    rw [hlast, Nat.div_add_mod, List.getElem?_concat_length]
  · rw [hm.pending j (by omega), List.getElem?_append_left (by omega)]

theorem execUpd_absorbed (hm : Absorbed m s) (b : Byte) (hmax : m.length + 1 < 2 ^ 61) :
    ∃ t, execUpd b s = .next t ∧ Absorbed (m ++ [b]) t := by
  obtain ⟨t, ht, hcount⟩ := hm.counters.execUpd_next b hmax
  have hpl : s.pl.toNat = m.length % 64 := hm.counters.pl
  have hlength : (m ++ [b]).length = m.length + 1 := List.length_append
  have hprefix : chainValue (m ++ [b]) (m.length / 64) = s.h := by
    rw [hm.h, chainValue_append (by omega)]
  obtain ⟨hlt, rfl⟩ | ⟨hge, blk, hblk, rfl⟩ := absorbByte_cases (absorbs_of_execUpd_fault_none ht hcount.fault)
  · have hroom : m.length % 64 < 63 := hpl ▸ BitVec.lt_def.mp hlt
    have hblocks : (m ++ [b]).length / 64 = m.length / 64 := by omega
    refine ⟨_, ht, hlength ▸ hcount, ?_, fun j hj => ?_⟩
    · rw [hblocks, hprefix]
    · rw [hblocks]
      exact hm.read_write b (by omega)
  · have hfull : m.length % 64 = 63 := by bv_omega
    have hblocks : (m ++ [b]).length / 64 = m.length / 64 + 1 := by omega
    have hlast : blk = blockAt (m ++ [b]) (m.length / 64) :=
      eq_blockAt fun i => (hm.read_write b (by omega)).symm.trans ((Memory.block?_eq_some _ _).mp hblk i)
    refine ⟨_, ht, hlength ▸ hcount, ?_, fun j hj => absurd hj (by omega)⟩
    rw [hblocks, chainValue, hprefix, ← hlast]

theorem update_absorbed (hm : Absorbed m s) (l : List Byte) (hmax : m.length + l.length < 2 ^ 61) :
    ∃ t, update l s = .next t ∧ Absorbed (m ++ l) t := by
  induction l generalizing m s with
  | nil => exact ⟨s, rfl, (List.append_nil m).symm ▸ hm⟩
  | cons b l ih =>
    rw [List.length_cons] at hmax
    obtain ⟨u, hu, hmb⟩ := hm.execUpd_absorbed b (by omega)
    obtain ⟨t, ht, hall⟩ := ih hmb (by rw [List.length_append, List.length_singleton]; omega)
    rw [List.append_assoc] at hall
    refine ⟨t, ?_, hall⟩
    calc update (b :: l) s
        = andThen (execUpd b s) (update l) := rfl
      _ = .next t := by rw [hu, andThen_next, ht]

end Absorbed

/-- `INIT` and one `UPD` per byte absorb the message. -/
theorem runScript_init_update_absorbed {s : State} {m : List Byte} (hs : s.fault = .none) (hmax : m.length < 2 ^ 61) :
    ∃ t, runScript (.init :: updateMacro m) s = .next t ∧ Absorbed m t := by
  obtain ⟨t, ht, hm⟩ := (absorbed_startMessage hs).update_absorbed m (by rw [List.length_nil]; omega)
  refine ⟨t, ?_, hm⟩
  calc runScript (.init :: updateMacro m) s
      = andThen (execInit s) (update m) := rfl
    _ = .next t := by rw [execInit_clear hs, andThen_next, ht]

/-- Settles O48: the counters, the fold and the pending bytes of a message absorbed. -/
theorem stateAfterAbsorbing : Obligations.StateAfterAbsorbing := by
  intro s m hs hmax
  obtain ⟨t, ht, ⟨hfault, htakes, hpl, htbl, -⟩, hh, hpending⟩ := runScript_init_update_absorbed hs hmax
  exact ⟨t, ht, hfault, (takesData_iff t.phase).mp htakes, by omega, hpl, htbl, hh, hpending⟩

/-! ### The padding (R138) -/

/-- The number of zero bytes between the marker and the length. -/
def padZeros (m : List Byte) : Nat := ((55 - (m.length : Int)) % 64).toNat

/-- The length field ends the block of the marker where it fits there. -/
theorem padZeros_of_lt {m : List Byte} (h : m.length % 64 < 56) :
    m.length + 1 + padZeros m = 64 * (m.length / 64) + 56 := by
  unfold padZeros
  omega

/-- It ends the next block where it does not. -/
theorem padZeros_of_ge {m : List Byte} (h : 56 ≤ m.length % 64) :
    m.length + 1 + padZeros m = 64 * (m.length / 64 + 1) + 56 := by
  unfold padZeros
  omega

theorem padMessage_eq_append (m : List Byte) :
    padMessage m =
      m ++ ([0x80] ++ List.replicate (padZeros m) 0x00 ++ bigEndian 8 (BitVec.ofNat 64 (8 * m.length))) := by
  rw [padMessage, padZeros, List.append_assoc, List.append_assoc, List.append_assoc]

theorem padMessage_length (m : List Byte) : (padMessage m).length = m.length + 1 + padZeros m + 8 := by
  simp [padMessage_eq_append]
  omega

section PadMessage
variable (m : List Byte) {k : Nat}

theorem padMessage_getElem?_message (hk : k < m.length) : (padMessage m)[k]? = m[k]? := by
  rw [padMessage_eq_append, List.getElem?_append_left hk]

theorem padMessage_getElem?_marker (hk : k = m.length) : (padMessage m)[k]? = some 0x80 := by
  simp [padMessage_eq_append, hk]

theorem padMessage_getElem?_zero (hlow : m.length < k) (hhigh : k < m.length + 1 + padZeros m) :
    (padMessage m)[k]? = some 0x00 := by
  rw [padMessage_eq_append, List.getElem?_append_right hlow.le,
    List.getElem?_append_left (by simp; omega), List.getElem?_append_right (by simp; omega),
    List.getElem?_replicate, if_pos (by simp; omega)]

theorem padMessage_getElem?_length (hlow : m.length + 1 + padZeros m ≤ k) (hhigh : k < m.length + 1 + padZeros m + 8) :
    (padMessage m)[k]? = some ((BitVec.ofNat 64 (8 * m.length)).extractLsb'
      (8 * (7 - (k - (m.length + 1 + padZeros m)))) 8) := by
  have hlength : ([0x80] ++ List.replicate (padZeros m) (0x00 : Byte)).length = 1 + padZeros m := by simp; omega
  rw [padMessage_eq_append, List.getElem?_append_right (by omega), List.getElem?_append_right (by omega), hlength,
    show k - m.length - (1 + padZeros m) = k - (m.length + 1 + padZeros m) by omega]
  exact bigEndian_getElem? (n := 8) _ (by omega)

end PadMessage

/-! ### The blocks `FINAL` compresses are the last blocks of the padded message -/

namespace Absorbed

variable {m : List Byte} {s : State}

theorem fillIndex_eq (hm : Absorbed m s) : s.fillIndex = m.length % 64 := hm.counters.pl

theorem encodedLength_eq (hm : Absorbed m s) : s.encodedLength = BitVec.ofNat 64 (8 * m.length) := by
  have htbl := hm.counters.tbl
  refine BitVec.eq_of_toNat_eq ?_
  rw [State.encodedLength, hm.fillIndex_eq, BitVec.toNat_add, BitVec.toNat_ofNat, BitVec.toNat_ofNat, htbl]
  omega

theorem read_eq_padMessage (hm : Absorbed m s) {i : Nat} (hi : i < m.length % 64) :
    s.pb.read i = (padMessage m)[64 * (m.length / 64) + i]? := by
  rw [hm.pending i hi, padMessage_getElem?_message m (by omega)]

theorem blockAt_of_isPaddedBlock (hm : Absorbed m s) (hroom : m.length % 64 < 56) {blk : Block}
    (hblk : IsPaddedBlock s blk) : blk = blockAt (padMessage m) (m.length / 64) := by
  refine eq_blockAt fun i => ?_
  have hzeros := padZeros_of_lt hroom
  obtain ⟨hmessage, hmarker, hzero, hlength⟩ := hblk i
  rw [hm.fillIndex_eq] at hmessage hmarker hzero
  rw [hm.encodedLength_eq] at hlength
  obtain hi | hi | hi | hi : i.val < m.length % 64 ∨ i.val = m.length % 64 ∨ (m.length % 64 < i.val ∧ i.val < 56) ∨
      56 ≤ i.val := by omega
  · rw [← hm.read_eq_padMessage hi, hmessage hi]
  · rw [padMessage_getElem?_marker m (by omega), hmarker hi]
  · rw [padMessage_getElem?_zero m (by omega) (by omega), hzero hi.1 hi.2]
  · rw [padMessage_getElem?_length m (by omega) (by omega), hlength hi,
      show 7 - (64 * (m.length / 64) + i.val - (m.length + 1 + padZeros m)) = 63 - i.val by omega]

theorem blockAt_of_isMarkedBlock (hm : Absorbed m s) (hfull : 56 ≤ m.length % 64) {blk : Block}
    (hblk : IsMarkedBlock s blk) : blk = blockAt (padMessage m) (m.length / 64) := by
  refine eq_blockAt fun i => ?_
  have hzeros := padZeros_of_ge hfull
  obtain ⟨hmessage, hmarker, hzero⟩ := hblk i
  rw [hm.fillIndex_eq] at hmessage hmarker hzero
  obtain hi | hi | hi : i.val < m.length % 64 ∨ i.val = m.length % 64 ∨ m.length % 64 < i.val := by omega
  · rw [← hm.read_eq_padMessage hi, hmessage hi]
  · rw [padMessage_getElem?_marker m (by omega), hmarker hi]
  · rw [padMessage_getElem?_zero m (by omega) (by omega), hzero hi]

theorem blockAt_of_isLengthBlock (hm : Absorbed m s) (hfull : 56 ≤ m.length % 64) {blk : Block}
    (hblk : IsLengthBlock s blk) : blk = blockAt (padMessage m) (m.length / 64 + 1) := by
  refine eq_blockAt fun i => ?_
  have hzeros := padZeros_of_ge hfull
  obtain ⟨hzero, hlength⟩ := hblk i
  rw [hm.encodedLength_eq] at hlength
  obtain hi | hi := Nat.lt_or_ge i.val 56
  · rw [padMessage_getElem?_zero m (by omega) (by omega), hzero hi]
  · rw [padMessage_getElem?_length m (by omega) (by omega), hlength hi,
      show 7 - (64 * (m.length / 64 + 1) + i.val - (m.length + 1 + padZeros m)) = 63 - i.val by omega]

/-- The whole blocks of the message are the first blocks of the padded message. -/
theorem chainValue_padMessage (hm : Absorbed m s) : chainValue (padMessage m) (m.length / 64) = s.h := by
  rw [padMessage_eq_append, chainValue_append (by omega), hm.h]

/-- `FINAL` carries the fold on over the rest of the padded message (R100, R138). -/
theorem exists_finalBlocks (hm : Absorbed m s) :
    ∃ bs, finalBlocks s = some bs ∧
      bs.foldl compress s.h = chainValue (padMessage m) ((padMessage m).length / 64) := by
  have hheld : ∀ a < s.fillIndex, s.pb.read a ≠ none := by
    rw [hm.fillIndex_eq]
    exact hm.counters.held
  have hlength := padMessage_length m
  obtain hroom | hfull := Nat.lt_or_ge (m.length % 64) 56
  · have hzeros := padZeros_of_lt hroom
    obtain ⟨blk, hblocks, hblk⟩ := exists_finalBlocks_one (hm.fillIndex_eq.trans_lt hroom) hheld
    refine ⟨_, hblocks, ?_⟩
    rw [show (padMessage m).length / 64 = m.length / 64 + 1 by omega, chainValue, hm.chainValue_padMessage,
      ← hm.blockAt_of_isPaddedBlock hroom hblk]
    rfl
  · have hzeros := padZeros_of_ge hfull
    obtain ⟨blk, fresh, hblocks, hblk, hfresh⟩ := exists_finalBlocks_two (hm.fillIndex_eq ▸ hfull) hheld
    refine ⟨_, hblocks, ?_⟩
    rw [show (padMessage m).length / 64 = m.length / 64 + 1 + 1 by omega, chainValue, chainValue,
      hm.chainValue_padMessage, ← hm.blockAt_of_isMarkedBlock hfull hblk, ← hm.blockAt_of_isLengthBlock hfull hfresh]
    rfl

end Absorbed

/-! ### One-shot hashing (R136) -/

theorem runScript_final (s : State) : runScript [.final] s = exec .final s := andThen_next_right _

/-- `HASH1` absorbs the message and finishes it. -/
theorem hash1_eq_andThen_final (m : List Byte) (s : State) :
    hash1 m s = andThen (runScript (.init :: updateMacro m) s) (exec .final) := by
  rw [hash1, hash1Macro, ← List.cons_append, runScript_append]
  exact congrArg (andThen _) (funext runScript_final)

/-- `HASH1` ends in a state in which the accumulator is the fold over the padded message and `DG` shows it. -/
theorem hash1_next {s : State} {m : List Byte} (hs : s.fault = .none) (hmax : m.length < 2 ^ 61) :
    ∃ t, hash1 m s = .next t ∧ t.phase = .finalized ∧ t.fault = .none ∧ t.dg = emitDigest t.h ∧
      digestBytes t.h = sha256 m := by
  obtain ⟨u, hu, hm⟩ := runScript_init_update_absorbed hs hmax
  obtain ⟨bs, hbs, hfold⟩ := hm.exists_finalBlocks
  refine ⟨finishMessage u (bs.foldl compress u.h), ?_, rfl, hm.counters.fault, rfl, congrArg digestBytes hfold⟩
  rw [hash1_eq_andThen_final, hu, andThen_next]
  exact execFinal_some hm.counters.fault hm.counters.takesData hbs

theorem readDigestBytes_of_succeeded {s : State} (h : Succeeded s) (hdg : s.dg = emitDigest s.h) :
    readDigestBytes s = some (digestBytes s.h) :=
  readDigestBytes_of_digestValid ((digestValid_iff_succeeded s).mpr h) hdg

/-- Settles O49: the digest register and the port both show the bytes of the last accumulator. -/
theorem hashOneShotComputesTheDigest : Obligations.HashOneShotComputesTheDigest := by
  intro s m hs hmax
  obtain ⟨t, ht, hp, hf, hdg, hdigest⟩ := hash1_next hs hmax
  refine ⟨t, ht, hp, hf, hdigest ▸ readDigestBytes_of_succeeded ⟨hp, hf⟩ hdg, fun i _ => ?_⟩
  rw [hdg, emitDigest_read_eq_digestBytes, hdigest]

/-- Settles O56: the digest of the self-test's message, evaluated, is the text expected. -/
theorem selfTestPasses_of_fault_none : Obligations.SelfTestPasses := by
  intro s hs
  obtain ⟨t, ht, hp, hf, hdg, hdigest⟩ := hash1_next (m := selfTestMessage) hs (by decide)
  have htext : hexText (sha256 selfTestMessage) = selfTestText := by decide +kernel
  rw [selfTestPasses, ht]
  simp only
  rw [readDigestBytes_of_succeeded ⟨hp, hf⟩ hdg, hdigest, Option.map_some, htext, beq_self_eq_true]

/-! ### Chunks (R137) -/

theorem update_append (m1 m2 : List Byte) (s : State) : update (m1 ++ m2) s = andThen (update m1 s) (update m2) := by
  rw [update, updateMacro, List.map_append, runScript_append]
  rfl

/-- Updates one after another are one update of the chunks in a row, whatever came before. -/
theorem foldl_update_eq_andThen_flatten (chunks : List (List Byte)) (r : Result) :
    chunks.foldl (fun r m => andThen r (update m)) r = andThen r (update chunks.flatten) := by
  induction chunks generalizing r with
  | nil => exact (andThen_next_right r).symm
  | cons m chunks ih =>
    calc (m :: chunks).foldl (fun r m => andThen r (update m)) r
        = andThen (andThen r (update m)) (update chunks.flatten) := ih (andThen r (update m))
      _ = andThen r fun s => andThen (update m s) (update chunks.flatten) := andThen_assoc ..
      _ = andThen r (update (m :: chunks).flatten) :=
          congrArg (andThen r) (funext fun s => (update_append m chunks.flatten s).symm)

/-- Settles O51: only the chunks in a row reach the engine. -/
theorem chunkingInvariance : Obligations.ChunkingInvariance := by
  refine ⟨fun m1 m2 s => (update_append m1 m2 s).symm, fun chunks s => ?_⟩
  calc andThen (exec .init s) (fun s =>
        andThen (chunks.foldl (fun r m => andThen r (update m)) (.next s)) (exec .final))
      = andThen (exec .init s) (fun s => andThen (update chunks.flatten s) (exec .final)) :=
        congrArg (andThen _) (funext fun s => by rw [foldl_update_eq_andThen_flatten, andThen_next])
    _ = andThen (andThen (exec .init s) (update chunks.flatten)) (exec .final) := (andThen_assoc ..).symm
    _ = hash1 chunks.flatten s := (hash1_eq_andThen_final ..).symm

/-! ### A script offered at the command port (R49, R68) -/

section Run
variable {M : Host.Core} {s t : M.State}

theorem run_succ_of_next (n : Nat) (h : M.step s = .next t) : M.run (n + 1) s = M.run n t := by
  rw [Host.Core.run, h]

theorem run_succ_of_fault {r : M.Fault} (n : Nat) (h : M.step s = .fault r) : M.run (n + 1) s = .fault r := by
  rw [Host.Core.run, h]

theorem run_succ_of_refused {r : M.Refusal} (n : Nat) (h : M.step s = .refused r) : M.run (n + 1) s = .refused r := by
  rw [Host.Core.run, h]

end Run

theorem core_run_succ (n : Nat) (s : State) :
    Sys2Proof.core.run (n + 1) s = andThen (step s) (Sys2Proof.core.run n) := by
  cases h : step s with
  | next t => exact run_succ_of_next (M := Sys2Proof.core) n h
  | fault f => exact run_succ_of_fault (M := Sys2Proof.core) n h
  | refused f => exact run_succ_of_refused (M := Sys2Proof.core) n h

/-- A step on an offered command runs it, and takes its sample. -/
theorem step_offer {s : State} {c : Instr} {ps : List Pins} (hp : s.pins = offer (encode c) :: ps) :
    step s = withPins ps (exec c s) := by
  have hcommand := takeSample_command (p := offer (encode c)) { s with pins := ps } rfl rfl
  rw [step_cons hp, hcommand, ← exec_pins]
  exact acceptWord_instr _ (decode_encode c)

/-- Settles O53: each step takes the next word, and no command looks at the samples behind it. -/
theorem offeredScriptIsRunInOrder : Obligations.OfferedScriptIsRunInOrder := by
  intro cs
  induction cs with
  | nil =>
    rintro s rest rfl
    rfl
  | cons c cs ih =>
    intro s rest hp
    have hstep := step_offer hp
    rw [List.length_cons, core_run_succ, hstep, runScript_cons, exec_pins c s rest]
    cases exec c s with
    | next u => exact ih { u with pins := (encodeScript cs).map offer ++ rest } rest rfl
    | fault f => rfl
    | refused f => rfl

end Sys2Proof.Machine
end

section
/-! Proofs about text: the text form of a digest (R139) and the lines of a script (R68, R69). -/

namespace Sys2Proof.Machine

/-! ### The text of a byte string (R139) -/

theorem hexDigit_toNat (v : BitVec 4) :
    (v.toNat ≤ 9 → (hexDigit v).toNat = 0x30 + v.toNat) ∧
      (10 ≤ v.toNat → (hexDigit v).toNat = 0x61 + (v.toNat - 10)) := by
  revert v
  decide

theorem hexDigit_injective {v w : BitVec 4} (h : hexDigit v = hexDigit w) : v = w := by
  revert v w
  decide

/-- A byte is its two nibbles. -/
theorem byte_eq_nibbles (b : Byte) : b = b.extractLsb' 4 4 ++ b.extractLsb' 0 4 := by
  rw [BitVec.extractLsb'_append_extractLsb'_eq_extractLsb' (by decide), BitVec.extractLsb'_eq_self]

theorem hexText_cons (b : Byte) (bs : List Byte) :
    hexText (b :: bs) = hexDigit (b.extractLsb' 4 4) :: hexDigit (b.extractLsb' 0 4) :: hexText bs := rfl

theorem hexText_length (bs : List Byte) : (hexText bs).length = 2 * bs.length := by
  induction bs with
  | nil => rfl
  | cons b bs ih => rw [hexText_cons, List.length_cons, List.length_cons, ih, List.length_cons, Nat.mul_succ]

theorem hexText_getElem? {bs : List Byte} {i : Nat} {b : Byte} (h : bs[i]? = some b) :
    (hexText bs)[2 * i]? = some (hexDigit (b.extractLsb' 4 4)) ∧
      (hexText bs)[2 * i + 1]? = some (hexDigit (b.extractLsb' 0 4)) := by
  induction bs generalizing i with
  | nil => cases h
  | cons c bs ih =>
    cases i with
    | zero =>
      obtain rfl : c = b := Option.some.inj h
      exact ⟨rfl, rfl⟩
    | succ i => exact ih h

theorem hexText_injective {bs cs : List Byte} (h : hexText bs = hexText cs) : bs = cs := by
  induction bs generalizing cs with
  | nil =>
    cases cs with
    | nil => rfl
    | cons c cs => cases h
  | cons b bs ih =>
    cases cs with
    | nil => cases h
    | cons c cs =>
      rw [hexText_cons, hexText_cons, List.cons.injEq, List.cons.injEq] at h
      obtain ⟨hhigh, hlow, hrest⟩ := h
      rw [byte_eq_nibbles b, byte_eq_nibbles c, hexDigit_injective hhigh, hexDigit_injective hlow, ih hrest]

theorem sha256_length (m : List Byte) : (sha256 m).length = 32 := digestBytes_length _

/-- Settles O55: two characters for each byte, which give its nibbles back. -/
theorem hexTextOfADigest : Obligations.HexTextOfADigest :=
  ⟨hexDigit_toNat, fun _ _ _ => hexText_getElem?, fun m => by rw [hexText_length, sha256_length],
    fun _ _ => hexText_injective⟩

/-! ### The lines of a script (R68) -/

theorem parseLine_upd_hex (b : Byte) : parseLine ("UPD 0x".toList ++ hexText [b]) = some [.upd b] := by
  revert b
  decide +kernel

theorem parseLine_upd_decimal :
    ∀ n < 256, parseLine ("UPD ".toList ++ Nat.toDigits 10 n) = some [.upd (BitVec.ofNat 8 n)] := by
  decide +kernel

/-- Settles O57, a form of a line at a time; each operand has 256 values. -/
theorem scriptLinesAreRead : Obligations.ScriptLinesAreRead :=
  ⟨by decide, by decide, parseLine_upd_hex, parseLine_upd_decimal, by decide, by decide, by decide⟩

end Sys2Proof.Machine
end

section
/-! Proofs about the host of spec 44_oneshot_hex_host.md section 4: what a call delivers (R148 to R151) and what it
releases and reports (R152, R153, R156). -/

namespace Sys2Proof.Machine

open Sys2Proof.Safety

/-! ### Steps 1 to 3 -/

section Serve
variable {p : HostParams} {c : Collaborators} {req : Request} (s : State)

theorem serve_of_acquireInput_eq_false (hr : req.inRange p = true) (h : c.acquireInput = false) :
    serve p c req s = .next ⟨p.resourceExhausted, s, []⟩ := by
  simp [serve, hr, h]

theorem serve_of_acquireOutput_eq_false (hr : req.inRange p = true) (hin : c.acquireInput = true)
    (h : c.acquireOutput = false) :
    serve p c req s = .next ⟨p.resourceExhausted, s, [.acquired .input, .released .input]⟩ := by
  simp [serve, hr, hin, h]

theorem serve_of_copiesIn_eq_false (hr : req.inRange p = true) (hin : c.acquireInput = true)
    (hout : c.acquireOutput = true) (h : c.copiesIn req = false) :
    serve p c req s = .next ⟨p.invalidSource, s, acquireBoth ++ releaseBoth⟩ := by
  simp [serve, hr, hin, hout, h]

theorem serve_of_copiesIn (hr : req.inRange p = true) (hin : c.acquireInput = true) (hout : c.acquireOutput = true)
    (h : c.copiesIn req = true) :
    serve p c req s = serveStaged p c req (overwriteFront (zeroBuffer p) (c.source req)) s := by
  simp [serve, hr, hin, hout, h]

end Serve

/-! ### Steps 4 to 6 -/

/-- A source of a length in range fits its buffer and is read back from it (R148, R154). -/
theorem staged_take {p : HostParams} (hp : p.wf) (c : Collaborators) {req : Request} (hr : req.inRange p = true) :
    (overwriteFront (zeroBuffer p) (c.source req)).take req.sourceLength.toNat = c.source req := by
  obtain ⟨-, hfits, -⟩ := hp
  obtain ⟨-, hmax⟩ := (inRange_iff req p).mp hr
  rw [← source_length c req]
  exact overwriteFront_take p (by rw [source_length]; omega)

/-- The source is shorter than the largest message of the engine (R154). -/
theorem source_length_lt {p : HostParams} (hp : p.wf) (c : Collaborators) {req : Request} (hr : req.inRange p = true) :
    (c.source req).length < 2 ^ 61 := by
  obtain ⟨-, -, -, hsmall, -⟩ := hp
  obtain ⟨-, hmax⟩ := (inRange_iff req p).mp hr
  rw [source_length]
  omega

/-- A digest fits its buffer and is read back from it (R150). -/
theorem output_take {p : HostParams} (hp : p.wf) {dg : List Byte} (h : dg.length = 32) :
    (overwriteFront (zeroBuffer p) dg).take 32 = dg := by
  obtain ⟨-, -, hscratch, -⟩ := hp
  rw [← h]
  exact overwriteFront_take p (h.trans_le hscratch)

theorem readDigestBytes_length {s : State} {dg : List Byte} (h : readDigestBytes s = some dg) : dg.length = 32 := by
  unfold readDigestBytes at h
  split at h
  · rw [← Option.some.inj h, bigEndian_length]
  · cases h

/-- A call that delivered its digest (R151, R153). -/
def deliveredReport (req : Request) (dg : List Byte) (t : State) : Served :=
  ⟨0, t, acquireBoth ++ [.copiedOut req.destinationPointer dg] ++ releaseBoth⟩

section ServeStaged
variable {p : HostParams} {c : Collaborators} {req : Request} {input : List Byte} {s t : State} {dg : List Byte}

theorem serveStaged_of_no_digest (ht : hash1 (input.take req.sourceLength.toNat) s = .next t)
    (hdg : readDigestBytes t = none) :
    serveStaged p c req input s = .next ⟨p.engineFault, t, acquireBoth ++ releaseBoth⟩ := by
  simp only [serveStaged, ht, hdg]

theorem serveStaged_of_digest (hp : p.wf) (ht : hash1 (input.take req.sourceLength.toNat) s = .next t)
    (hdg : readDigestBytes t = some dg) :
    serveStaged p c req input s = .next (if c.copyToCaller req.destinationPointer dg then deliveredReport req dg t
      else ⟨p.invalidDestination, t, acquireBoth ++ releaseBoth⟩) := by
  simp only [serveStaged, ht, hdg, output_take hp (readDigestBytes_length hdg)]
  split <;> rfl

theorem serveStaged_cases (hp : p.wf) {r : Served} (h : serveStaged p c req input s = .next r) :
    ∃ t, hash1 (input.take req.sourceLength.toNat) s = .next t ∧
      ((readDigestBytes t = none ∧ r = ⟨p.engineFault, t, acquireBoth ++ releaseBoth⟩) ∨
      ∃ dg, readDigestBytes t = some dg ∧
        (r = deliveredReport req dg t ∨ r = ⟨p.invalidDestination, t, acquireBoth ++ releaseBoth⟩)) := by
  cases ht : hash1 (input.take req.sourceLength.toNat) s with
  | next t =>
    refine ⟨t, rfl, ?_⟩
    cases hdg : readDigestBytes t with
    | none =>
      rw [serveStaged_of_no_digest ht hdg] at h
      exact .inl ⟨rfl, (Host.Outcome.next.inj h).symm⟩
    | some dg =>
      rw [serveStaged_of_digest hp ht hdg] at h
      refine .inr ⟨dg, rfl, ?_⟩
      rw [← Host.Outcome.next.inj h]
      split
      · exact .inl rfl
      · exact .inr rfl
  | fault f =>
    simp only [serveStaged, ht] at h
    cases h
  | refused f =>
    simp only [serveStaged, ht] at h
    cases h

/-- From an engine with `FAULT = None` the digest of the source comes to its last copy. -/
theorem serveStaged_unfaulted (hp : p.wf) (c : Collaborators) (hr : req.inRange p = true) (hs : s.fault = .none) :
    ∃ t, Succeeded t ∧ serveStaged p c req (overwriteFront (zeroBuffer p) (c.source req)) s =
      .next (if c.copyToCaller req.destinationPointer (sha256 (c.source req)) then
        deliveredReport req (sha256 (c.source req)) t
      else ⟨p.invalidDestination, t, acquireBoth ++ releaseBoth⟩) := by
  obtain ⟨t, ht, hphase, hfault, hdg, hdigest⟩ := hash1_next hs (source_length_lt hp c hr)
  rw [← staged_take hp c hr] at ht
  have hread : readDigestBytes t = some (sha256 (c.source req)) :=
    hdigest ▸ readDigestBytes_of_succeeded ⟨hphase, hfault⟩ hdg
  exact ⟨t, ⟨hphase, hfault⟩, serveStaged_of_digest hp ht hread⟩

end ServeStaged

/-- Settles O59: the message is the source, and every step lets it through. -/
theorem hostDeliversTheDigest : Obligations.HostDeliversTheDigest := by
  intro p c req s hp hs hmin hmax hin hout hcopy hdeliver
  have hr : req.inRange p = true := (inRange_iff req p).mpr ⟨hmin, hmax⟩
  obtain ⟨t, ht, hserve⟩ := serveStaged_unfaulted hp c hr hs
  rw [if_pos (hdeliver _)] at hserve
  exact ⟨c.source req, t, source_length c req, fun i hi => source_getElem? c req hi, ht,
    (serve_of_copiesIn s hr hin hout hcopy).trans hserve⟩

/-! ### Releases and reports (R152, R153, R156) -/

theorem readDigestBytes_eq_none_of_fault {s : State} (h : s.fault ≠ .none) : readDigestBytes s = none := by
  cases hdg : readDigestBytes s with
  | none => rfl
  | some dg => cases (readDigestBytes_digestValid hdg).symm.trans (digestValid_eq_false_of_fault h)

/-- What a call leaves behind, however it ends. -/
structure WellReported (p : HostParams) (req : Request) (r : Served) : Prop where
  released : ∀ b : Scratch, r.events.count (.acquired b) = r.events.count (.released b)
  delivered : r.status = 0 ↔ ∃ bs, .copiedOut req.destinationPointer bs ∈ r.events
  failed : r.status ≠ 0 → r.status ∈ p.failureCodes ∧ r.status < 0
  whole : ∀ d bs, .copiedOut d bs ∈ r.events → d = req.destinationPointer ∧ bs.length = 32
  faulted : r.engine.fault ≠ .none → ∀ d bs, .copiedOut d bs ∉ r.events

/-- A call that ends with a failure code and has copied nothing out. -/
theorem wellReported_of_failure {p : HostParams} (hp : p.wf) (req : Request) {r : Served}
    (hcode : r.status ∈ p.failureCodes) (hcount : ∀ b, r.events.count (.acquired b) = r.events.count (.released b))
    (hnone : ∀ d bs, .copiedOut d bs ∉ r.events) : WellReported p req r := by
  obtain ⟨-, -, -, -, hneg, -⟩ := hp
  have hlt : r.status < 0 := hneg _ hcode
  exact ⟨hcount, ⟨fun h => absurd h hlt.ne, fun ⟨bs, h⟩ => absurd h (hnone _ bs)⟩, fun _ => ⟨hcode, hlt⟩,
    fun d bs h => absurd h (hnone d bs), fun _ => hnone⟩

theorem wellReported_of_failure_both {p : HostParams} (hp : p.wf) (req : Request) {code : Int} (t : State)
    (hcode : code ∈ p.failureCodes) : WellReported p req ⟨code, t, acquireBoth ++ releaseBoth⟩ := by
  refine wellReported_of_failure hp req hcode (fun b => ?_) (fun d bs => ?_)
  · cases b <;> rfl
  · simp [acquireBoth, releaseBoth]

theorem wellReported_deliveredReport (p : HostParams) (req : Request) {t : State} {dg : List Byte}
    (h : readDigestBytes t = some dg) : WellReported p req (deliveredReport req dg t) where
  released b := by cases b <;> simp [deliveredReport, acquireBoth, releaseBoth]
  delivered := by simp [deliveredReport, acquireBoth, releaseBoth]
  failed hne := absurd rfl hne
  whole d bs hmem := by
    simp only [deliveredReport, acquireBoth, releaseBoth, List.mem_append, List.mem_cons, List.not_mem_nil, or_false,
      reduceCtorEq, false_or, HostEvent.copiedOut.injEq] at hmem
    obtain ⟨rfl, rfl⟩ := hmem
    exact ⟨rfl, readDigestBytes_length h⟩
  faulted hne := nomatch h.symm.trans (readDigestBytes_eq_none_of_fault (s := t) hne)

theorem serve_wellReported {p : HostParams} (hp : p.wf) {c : Collaborators} {req : Request} {s : State} {r : Served}
    (h : serve p c req s = .next r) : WellReported p req r := by
  cases hr : req.inRange p with
  | false =>
    obtain rfl := Host.Outcome.next.inj ((serve_of_inRange_eq_false c s hr).symm.trans h)
    exact wellReported_of_failure hp req (by simp [HostParams.failureCodes]) (fun _ => rfl) (by simp)
  | true =>
  cases hin : c.acquireInput with
  | false =>
    obtain rfl := Host.Outcome.next.inj ((serve_of_acquireInput_eq_false s hr hin).symm.trans h)
    exact wellReported_of_failure hp req (by simp [HostParams.failureCodes]) (fun _ => rfl) (by simp)
  | true =>
  cases hout : c.acquireOutput with
  | false =>
    obtain rfl := Host.Outcome.next.inj ((serve_of_acquireOutput_eq_false s hr hin hout).symm.trans h)
    exact wellReported_of_failure hp req (by simp [HostParams.failureCodes]) (fun b => by cases b <;> rfl) (by simp)
  | true =>
  cases hcopy : c.copiesIn req with
  | false =>
    obtain rfl := Host.Outcome.next.inj ((serve_of_copiesIn_eq_false s hr hin hout hcopy).symm.trans h)
    exact wellReported_of_failure_both hp req s (by simp [HostParams.failureCodes])
  | true =>
    rw [serve_of_copiesIn s hr hin hout hcopy] at h
    obtain ⟨t, -, ⟨-, rfl⟩ | ⟨dg, hdg, rfl | rfl⟩⟩ := serveStaged_cases hp h
    · exact wellReported_of_failure_both hp req t (by simp [HostParams.failureCodes])
    · exact wellReported_deliveredReport p req hdg
    · exact wellReported_of_failure_both hp req t (by simp [HostParams.failureCodes])

/-- An engine that faults in step 4 shows no digest, and the call fails (R156). -/
theorem serve_of_engine_fault {p : HostParams} (hp : p.wf) {c : Collaborators} {req : Request} {s t : State}
    (hr : req.inRange p = true) (hin : c.acquireInput = true) (hout : c.acquireOutput = true)
    (hcopy : c.copiesIn req = true) (ht : hash1 (c.source req) s = .next t) (hfault : t.fault ≠ .none) :
    serve p c req s = .next ⟨p.engineFault, t, acquireBoth ++ releaseBoth⟩ := by
  rw [← staged_take hp c hr] at ht
  rw [serve_of_copiesIn s hr hin hout hcopy]
  exact serveStaged_of_no_digest ht (readDigestBytes_eq_none_of_fault hfault)

/-- Settles O60: each way a call ends is well reported, and an engine that faults ends it in one of them. -/
theorem hostReleasesAndReports : Obligations.HostReleasesAndReports := by
  intro p c req s r hp h
  obtain ⟨hreleased, hdelivered, hfailed, hwhole, hfaulted⟩ := serve_wellReported hp h
  refine ⟨hreleased, hdelivered, hfailed, hwhole, hfaulted, fun t hmin hmax hin hout hcopy ht hfault => ?_⟩
  have hserve := serve_of_engine_fault hp ((inRange_iff req p).mpr ⟨hmin, hmax⟩) hin hout hcopy ht hfault
  exact Host.Outcome.next.inj (h.symm.trans hserve)

end Sys2Proof.Machine
end

section
/-! Proofs about engines and host calls side by side (R155, R171, R189): an engine moves by its own steps only, and a call,
whatever the order of steps, ends with the status and the events it has alone. -/

namespace Sys2Proof.Machine

open Sys2Proof.Safety

/-! ### Several engines (R171) -/

theorem stepInstance_getElem?_same {sys : List State} {j : Nat} {s : State} (h : sys[j]? = some s) :
    (stepInstance j sys)[j]? = some (stepOrStay s) := by
  rw [stepInstance, List.getElem?_modify_eq, h]
  rfl

theorem stepInstance_getElem?_other (sys : List State) {i j : Nat} (h : i ≠ j) :
    (stepInstance i sys)[j]? = sys[j]? := List.getElem?_modify_ne _ _ h

theorem runSchedule_getElem? (sched : List Nat) {sys : List State} {j : Nat} {s : State} (h : sys[j]? = some s) :
    (runSchedule sched sys)[j]? = some (stepsAlone (sched.count j) s) := by
  induction sched generalizing sys s with
  | nil => exact h
  | cons i is ih =>
    by_cases hij : i = j
    · subst hij
      rw [runSchedule, ih (stepInstance_getElem?_same h), List.count_cons_self]
      rfl
    · rw [runSchedule, ih ((stepInstance_getElem?_other sys hij).trans h), List.count_cons_of_ne hij]

/-! ### What a call reports -/

/-- The status and the events of a call on an engine with `FAULT = None` (R153). -/
def callReport (p : HostParams) (c : Collaborators) (req : Request) : Int × List HostEvent :=
  if req.inRange p = false then (p.invalidLength, [])
  else if c.acquireInput = false then (p.resourceExhausted, [])
  else if c.acquireOutput = false then (p.resourceExhausted, [.acquired .input, .released .input])
  else if c.copiesIn req = false then (p.invalidSource, acquireBoth ++ releaseBoth)
  else if c.copyToCaller req.destinationPointer (sha256 (c.source req)) = false then
    (p.invalidDestination, acquireBoth ++ releaseBoth)
  else (0, acquireBoth ++ [.copiedOut req.destinationPointer (sha256 (c.source req))] ++ releaseBoth)

/-- The report does not depend on the engine. -/
theorem serve_unfaulted {p : HostParams} (hp : p.wf) (c : Collaborators) (req : Request) {s : State}
    (hs : s.fault = .none) :
    ∃ t, serve p c req s = .next ⟨(callReport p c req).1, t, (callReport p c req).2⟩ := by
  cases hr : req.inRange p with
  | false => exact ⟨s, by rw [serve_of_inRange_eq_false c s hr]; simp [callReport, hr]⟩
  | true =>
  cases hin : c.acquireInput with
  | false => exact ⟨s, by rw [serve_of_acquireInput_eq_false s hr hin]; simp [callReport, hr, hin]⟩
  | true =>
  cases hout : c.acquireOutput with
  | false => exact ⟨s, by rw [serve_of_acquireOutput_eq_false s hr hin hout]; simp [callReport, hr, hin, hout]⟩
  | true =>
  cases hcopy : c.copiesIn req with
  | false =>
    exact ⟨s, by rw [serve_of_copiesIn_eq_false s hr hin hout hcopy]; simp [callReport, hr, hin, hout, hcopy]⟩
  | true =>
    obtain ⟨t, -, ht⟩ := serveStaged_unfaulted hp c hr hs
    refine ⟨t, ?_⟩
    rw [serve_of_copiesIn s hr hin hout hcopy, ht]
    cases hdeliver : c.copyToCaller req.destinationPointer (sha256 (c.source req)) <;>
      simp [callReport, deliveredReport, hr, hin, hout, hcopy, hdeliver]

/-! ### The stages of a call

What is true of a call by itself at each stage (`StageInv`), and of its engine while it holds it (`Hashing`). -/

/-- Both buffers held and the source staged in the first (R147, R148). -/
structure Staged (p : HostParams) (c : Call) : Prop where
  inRange : c.request.inRange p = true
  acquiredInput : c.collaborators.acquireInput = true
  acquiredOutput : c.collaborators.acquireOutput = true
  copiedIn : c.collaborators.copiesIn c.request = true
  input : c.input = some (overwriteFront (zeroBuffer p) (c.collaborators.source c.request))
  events : c.events = acquireBoth

theorem Staged.withStage {p : HostParams} {c : Call} (h : Staged p c) (stage : CallStage) (output : Option (List Byte)) :
    Staged p { c with stage := stage, output := output } :=
  ⟨h.inRange, h.acquiredInput, h.acquiredOutput, h.copiedIn, h.input, h.events⟩

/-- What is true of a call at each stage. -/
def StageInv (p : HostParams) (c : Call) : Prop :=
  match c.stage with
  | .validate => c.input = none ∧ c.output = none ∧ c.events = []
  | .acquireInput => c.request.inRange p = true ∧ c.input = none ∧ c.output = none ∧ c.events = []
  | .acquireOutput =>
    c.request.inRange p = true ∧ c.collaborators.acquireInput = true ∧ c.input = some (zeroBuffer p) ∧
      c.output = none ∧ c.events = [.acquired .input]
  | .copyIn =>
    c.request.inRange p = true ∧ c.collaborators.acquireInput = true ∧ c.collaborators.acquireOutput = true ∧
      c.input = some (zeroBuffer p) ∧ c.output = some (zeroBuffer p) ∧ c.events = acquireBoth
  | .awaitEngine | .hashing _ => Staged p c ∧ c.output = some (zeroBuffer p)
  | .copyOut =>
    Staged p c ∧ c.output = some (overwriteFront (zeroBuffer p) (sha256 (c.collaborators.source c.request)))
  | .release status => callReport p c.collaborators c.request = (status, c.events ++ c.releases)
  | .done status =>
    c.input = none ∧ c.output = none ∧ callReport p c.collaborators c.request = (status, c.events)

/-- The engine of a call that holds it: some commands of its `HASH1` are done, from a state with `FAULT = None`. -/
def Hashing (c : Call) (e : State) (rest : List Instr) : Prop :=
  ∃ (done : List Instr) (s : State), s.fault = .none ∧ done ++ rest = hash1Macro (c.collaborators.source c.request) ∧
    runScript done s = .next e

theorem hashing_start (c : Call) {e : State} (he : e.fault = .none) :
    Hashing c e (hash1Macro (c.collaborators.source c.request)) := ⟨[], e, he, rfl, rfl⟩

section Hashing
variable {p : HostParams} {c : Call} {e : State} {i : Instr} {rest : List Instr}

theorem hashing_exec {t : State} (h : Hashing c e (i :: rest)) (ht : exec i e = .next t) : Hashing c t rest := by
  obtain ⟨done, s, hs, hmacro, hrun⟩ := h
  refine ⟨done ++ [i], s, hs, by rw [← hmacro, List.append_assoc]; rfl, ?_⟩
  rw [runScript_append, hrun, andThen_next, runScript_cons, ht]
  rfl

/-- No command of the `HASH1` stops the engine. -/
theorem exec_next_of_hashing (hp : p.wf) (hr : c.request.inRange p = true) (h : Hashing c e (i :: rest)) :
    ∃ t, exec i e = .next t := by
  obtain ⟨done, s, hs, hmacro, hrun⟩ := h
  obtain ⟨u, hu, -⟩ := hash1_next hs (source_length_lt hp c.collaborators hr)
  rw [hash1, ← hmacro, runScript_append, hrun, andThen_next, runScript_cons] at hu
  obtain ⟨t, ht, -⟩ := andThen_next_cases hu
  exact ⟨t, ht⟩

/-- After the last command the engine shows the digest of the source. -/
theorem digest_of_hashing_nil (hp : p.wf) (hr : c.request.inRange p = true) (h : Hashing c e []) :
    e.fault = .none ∧ readDigestBytes e = some (sha256 (c.collaborators.source c.request)) := by
  obtain ⟨done, s, hs, hmacro, hrun⟩ := h
  obtain ⟨u, hu, hphase, hfault, hdg, hdigest⟩ := hash1_next hs (source_length_lt hp c.collaborators hr)
  rw [hash1, ← hmacro, List.append_nil, hrun] at hu
  obtain rfl := Host.Outcome.next.inj hu
  exact ⟨hfault, hdigest ▸ readDigestBytes_of_succeeded ⟨hphase, hfault⟩ hdg⟩

end Hashing

/-! ### One step of a call -/

theorem stageInv_start (p : HostParams) (c : Collaborators) (req : Request) (n : Nat) :
    StageInv p (Call.start c req n) := ⟨rfl, rfl, rfl⟩

/-- How many steps of its own a call takes at most before it has returned, when its engine is free as it asks for it. -/
def Call.stepsLeft (c : Call) : Nat :=
  match c.stage with
  | .validate => (hash1Macro (c.collaborators.source c.request)).length + 8
  | .acquireInput => (hash1Macro (c.collaborators.source c.request)).length + 7
  | .acquireOutput => (hash1Macro (c.collaborators.source c.request)).length + 6
  | .copyIn => (hash1Macro (c.collaborators.source c.request)).length + 5
  | .awaitEngine => (hash1Macro (c.collaborators.source c.request)).length + 4
  | .hashing rest => rest.length + 3
  | .copyOut => 2
  | .release _ => 1
  | .done _ => 0

theorem stage_done_of_stepsLeft_eq_zero {c : Call} (h : c.stepsLeft = 0) : ∃ status, c.stage = .done status := by
  cases hs : c.stage with
  | done status => exact ⟨status, rfl⟩
  | _ => simp [Call.stepsLeft, hs] at h

theorem holdsEngine_iff (c : Call) : c.holdsEngine = true ↔ ∃ rest, c.stage = .hashing rest := by
  cases hs : c.stage <;> simp [Call.holdsEngine, hs]

/-- What a step of a call keeps: its stage's facts, and those of its engine while it holds it. An engine it gives back has
no fault, and unless it waits it comes closer to its return. -/
structure StepKeeps (p : HostParams) (free : Bool) (c c' : Call) (e' : State) : Prop where
  stage : StageInv p c'
  hashing : ∀ rest, c'.stage = .hashing rest → Hashing c' e' rest
  givesBack : c.holdsEngine = true → c'.holdsEngine = false → e'.fault = .none
  advances : (c.holdsEngine = false → free = true) → 0 < c.stepsLeft → c'.stepsLeft < c.stepsLeft

/-- The step of a call that does not hold its engine before it or after it. -/
theorem stepKeeps_of_not_holds {p : HostParams} {free : Bool} {c c' : Call} (e' : State) (hc : c.holdsEngine = false)
    (hc' : c'.holdsEngine = false) (h : StageInv p c') (hleft : c'.stepsLeft < c.stepsLeft) :
    StepKeeps p free c c' e' where
  stage := h
  hashing rest hs := nomatch hc'.symm.trans ((holdsEngine_iff c').mpr ⟨rest, hs⟩)
  givesBack hheld := nomatch hc.symm.trans hheld
  advances _ _ := hleft

section CallStep
variable {p : HostParams} {free : Bool} {c : Call} {e : State}

theorem callStep_validate (hs : c.stage = .validate) (h : StageInv p c) :
    StepKeeps p free c (c.step p free e).1 (c.step p free e).2 := by
  simp only [StageInv, hs] at h
  obtain ⟨hin, hout, hevents⟩ := h
  have hc : c.holdsEngine = false := by simp only [Call.holdsEngine, hs]
  simp only [Call.step, hs]
  cases hr : c.request.inRange p with
  | true => exact stepKeeps_of_not_holds e hc rfl ⟨hr, hin, hout, hevents⟩ (by simp [Call.stepsLeft, hs])
  | false =>
    exact stepKeeps_of_not_holds e hc rfl ⟨hin, hout, by simp [callReport, hr, hevents]⟩
      (by simp [Call.stepsLeft, hs])

theorem callStep_acquireInput (hs : c.stage = .acquireInput) (h : StageInv p c) :
    StepKeeps p free c (c.step p free e).1 (c.step p free e).2 := by
  simp only [StageInv, hs] at h
  obtain ⟨hr, hin, hout, hevents⟩ := h
  have hc : c.holdsEngine = false := by simp only [Call.holdsEngine, hs]
  simp only [Call.step, hs]
  cases ha : c.collaborators.acquireInput with
  | true =>
    exact stepKeeps_of_not_holds e hc rfl ⟨hr, ha, rfl, hout, by simp [hevents]⟩ (by simp [Call.stepsLeft, hs])
  | false =>
    have hreport : callReport p c.collaborators c.request = (p.resourceExhausted, c.events ++ c.releases) := by
      simp [callReport, Call.releases, hr, ha, hin, hout, hevents]
    exact stepKeeps_of_not_holds e hc rfl hreport (by simp [Call.stepsLeft, hs])

theorem callStep_acquireOutput (hs : c.stage = .acquireOutput) (h : StageInv p c) :
    StepKeeps p free c (c.step p free e).1 (c.step p free e).2 := by
  simp only [StageInv, hs] at h
  obtain ⟨hr, hacquired, hin, hout, hevents⟩ := h
  have hc : c.holdsEngine = false := by simp only [Call.holdsEngine, hs]
  simp only [Call.step, hs]
  cases ha : c.collaborators.acquireOutput with
  | true =>
    exact stepKeeps_of_not_holds e hc rfl ⟨hr, hacquired, ha, hin, rfl, by simp [hevents, acquireBoth]⟩
      (by simp [Call.stepsLeft, hs])
  | false =>
    have hreport : callReport p c.collaborators c.request = (p.resourceExhausted, c.events ++ c.releases) := by
      simp [callReport, Call.releases, hr, hacquired, ha, hin, hout, hevents]
    exact stepKeeps_of_not_holds e hc rfl hreport (by simp [Call.stepsLeft, hs])

theorem callStep_copyIn (hs : c.stage = .copyIn) (h : StageInv p c) :
    StepKeeps p free c (c.step p free e).1 (c.step p free e).2 := by
  simp only [StageInv, hs] at h
  obtain ⟨hr, hacquired, hacquired', hin, hout, hevents⟩ := h
  have hc : c.holdsEngine = false := by simp only [Call.holdsEngine, hs]
  simp only [Call.step, hs]
  cases hcopy : c.collaborators.copiesIn c.request with
  | true =>
    have hinput : c.input.map (overwriteFront · (c.collaborators.source c.request)) =
        some (overwriteFront (zeroBuffer p) (c.collaborators.source c.request)) := by rw [hin, Option.map_some]
    exact stepKeeps_of_not_holds e hc rfl ⟨⟨hr, hacquired, hacquired', hcopy, hinput, hevents⟩, hout⟩
      (by simp [Call.stepsLeft, hs])
  | false =>
    have hreport : callReport p c.collaborators c.request = (p.invalidSource, c.events ++ c.releases) := by
      simp [callReport, Call.releases, hr, hacquired, hacquired', hcopy, hin, hout, hevents, releaseBoth]
    exact stepKeeps_of_not_holds e hc rfl hreport (by simp [Call.stepsLeft, hs])

/-- A call whose turn has come takes an engine without a fault, for the commands of its `HASH1`. -/
theorem callStep_awaitEngine (hp : p.wf) (hs : c.stage = .awaitEngine) (h : StageInv p c)
    (hfree : free = true → e.fault = .none) :
    StepKeeps p free c (c.step p free e).1 (c.step p free e).2 := by
  have hstage := h
  simp only [StageInv, hs] at h
  obtain ⟨hstaged, hout⟩ := h
  have hc : c.holdsEngine = false := by simp only [Call.holdsEngine, hs]
  have hsource : (c.input.getD []).take c.request.sourceLength.toNat = c.collaborators.source c.request := by
    rw [hstaged.input, Option.getD_some, staged_take hp c.collaborators hstaged.inRange]
  simp only [Call.step, hs, hsource]
  cases free with
  | true =>
    rw [if_pos rfl]
    refine ⟨⟨hstaged.withStage _ c.output, hout⟩, fun rest hrest => ?_,
      fun hheld => (nomatch hc.symm.trans hheld), fun _ _ => ?_⟩
    · obtain rfl := CallStage.hashing.inj hrest
      exact hashing_start c (hfree rfl)
    · simp [Call.stepsLeft, hs]
  | false =>
    exact ⟨hstage, fun rest hrest => (nomatch hs.symm.trans hrest), fun hheld => (nomatch hc.symm.trans hheld),
      fun hturn => nomatch hturn hc⟩

/-- A call that holds its engine runs the next command on it, or reads the digest and gives it back. -/
theorem callStep_hashing {rest : List Instr} (hp : p.wf) (hs : c.stage = .hashing rest) (h : StageInv p c)
    (hhash : Hashing c e rest) : StepKeeps p free c (c.step p free e).1 (c.step p free e).2 := by
  simp only [StageInv, hs] at h
  obtain ⟨hstaged, hout⟩ := h
  cases rest with
  | cons i rest =>
    obtain ⟨t, ht⟩ := exec_next_of_hashing hp hstaged.inRange hhash
    simp only [Call.step, hs, Call.hashStep, ht]
    refine ⟨⟨hstaged.withStage _ c.output, hout⟩, fun rest' hrest => ?_,
      fun _ hgives => (nomatch hgives), fun _ _ => ?_⟩
    · obtain rfl := CallStage.hashing.inj hrest
      exact hashing_exec hhash ht
    · simp [Call.stepsLeft, hs]
  | nil =>
    obtain ⟨hfault, hdigest⟩ := digest_of_hashing_nil hp hstaged.inRange hhash
    simp only [Call.step, hs, Call.hashStep, hdigest]
    refine ⟨⟨hstaged.withStage _ _, ?_⟩, nofun, fun _ _ => hfault, fun _ _ => ?_⟩
    · rw [hout, Option.map_some]
    · simp [Call.stepsLeft, hs]

theorem callStep_copyOut (hp : p.wf) (hs : c.stage = .copyOut) (h : StageInv p c) :
    StepKeeps p free c (c.step p free e).1 (c.step p free e).2 := by
  simp only [StageInv, hs] at h
  obtain ⟨⟨hr, hacquired, hacquired', hcopy, hin, hevents⟩, hout⟩ := h
  have hc : c.holdsEngine = false := by simp only [Call.holdsEngine, hs]
  have houtput : (c.output.getD []).take 32 = sha256 (c.collaborators.source c.request) := by
    rw [hout, Option.getD_some, output_take hp (sha256_length _)]
  simp only [Call.step, hs, houtput]
  cases hdeliver : c.collaborators.copyToCaller c.request.destinationPointer
      (sha256 (c.collaborators.source c.request)) with
  | true =>
    refine stepKeeps_of_not_holds e hc rfl ?_ (by simp [Call.stepsLeft, hs])
    simp [StageInv, callReport, Call.releases, hr, hacquired, hacquired', hcopy, hdeliver, hin, hout, hevents, releaseBoth]
  | false =>
    have hreport : callReport p c.collaborators c.request = (p.invalidDestination, c.events ++ c.releases) := by
      simp [callReport, Call.releases, hr, hacquired, hacquired', hcopy, hdeliver, hin, hout, hevents, releaseBoth]
    exact stepKeeps_of_not_holds e hc rfl hreport (by simp [Call.stepsLeft, hs])

theorem callStep_release {status : Int} (hs : c.stage = .release status) (h : StageInv p c) :
    StepKeeps p free c (c.step p free e).1 (c.step p free e).2 := by
  simp only [StageInv, hs] at h
  have hc : c.holdsEngine = false := by simp only [Call.holdsEngine, hs]
  simp only [Call.step, hs]
  exact stepKeeps_of_not_holds e hc rfl ⟨rfl, rfl, h⟩ (by simp [Call.stepsLeft, hs])

theorem callStep_done {status : Int} (hs : c.stage = .done status) (h : StageInv p c) :
    StepKeeps p free c (c.step p free e).1 (c.step p free e).2 := by
  have hc : c.holdsEngine = false := by simp only [Call.holdsEngine, hs]
  have hleft : c.stepsLeft = 0 := by simp only [Call.stepsLeft, hs]
  simp only [Call.step, hs]
  exact ⟨h, fun rest hrest => (nomatch hs.symm.trans hrest), fun hheld => (nomatch hc.symm.trans hheld),
    fun _ hpos => absurd hleft hpos.ne'⟩

theorem callStep_stepKeeps (hp : p.wf) (h : StageInv p c) (hhash : ∀ rest, c.stage = .hashing rest → Hashing c e rest)
    (hfree : free = true → e.fault = .none) : StepKeeps p free c (c.step p free e).1 (c.step p free e).2 := by
  cases hs : c.stage with
  | validate => exact callStep_validate hs h
  | acquireInput => exact callStep_acquireInput hs h
  | acquireOutput => exact callStep_acquireOutput hs h
  | copyIn => exact callStep_copyIn hs h
  | awaitEngine => exact callStep_awaitEngine hp hs h hfree
  | hashing rest => exact callStep_hashing hp hs h (hhash rest hs)
  | copyOut => exact callStep_copyOut hp hs h
  | release status => exact callStep_release hs h
  | done status => exact callStep_done hs h

end CallStep

/-! ### Calls side by side (R155, R189) -/

/-- What is true of the calls and engines of a system in any order of steps: each call's stage, the engine of a call that
holds it, no fault on a free engine, and no engine held twice. -/
structure CallsInv (p : HostParams) (sys : HostSystem) : Prop where
  stage : ∀ {k : Nat} {c : Call}, sys.calls[k]? = some c → StageInv p c
  hashing : ∀ {k : Nat} {c : Call} {e : State} {rest : List Instr}, sys.calls[k]? = some c →
    sys.engines[c.engine]? = some e → c.stage = .hashing rest → Hashing c e rest
  free : ∀ {n : Nat} {e : State}, sys.engines[n]? = some e → sys.engineFree n = true → e.fault = .none
  exclusive : ∀ {j k : Nat} {c d : Call}, sys.calls[j]? = some c → sys.calls[k]? = some d → c.holdsEngine = true →
    d.holdsEngine = true → c.engine = d.engine → j = k

theorem callsInv_start {p : HostParams} {sys : HostSystem}
    (hstart : ∀ c ∈ sys.calls, c = Call.start c.collaborators c.request c.engine)
    (hengines : ∀ e ∈ sys.engines, e.fault = .none) : CallsInv p sys := by
  have hnew {k : Nat} {c : Call} (hc : sys.calls[k]? = some c) : StageInv p c ∧ c.stage = .validate := by
    rw [hstart c (List.mem_of_getElem? hc)]
    exact ⟨stageInv_start p _ _ _, rfl⟩
  have hidle {k : Nat} {c : Call} (hc : sys.calls[k]? = some c) : c.holdsEngine = false := by
    rw [Call.holdsEngine, (hnew hc).2]
  exact ⟨fun hc => (hnew hc).1, fun hc _ hs => (nomatch hs.symm.trans (hnew hc).2),
    fun he _ => hengines _ (List.mem_of_getElem? he), fun hc _ hheld => (nomatch (hidle hc).symm.trans hheld)⟩

/-- A free engine, call by call. -/
theorem engineFree_iff_getElem? (sys : HostSystem) (n : Nat) :
    sys.engineFree n = true ↔
      ∀ (j : Nat) (d : Call), sys.calls[j]? = some d → d.holdsEngine = true → d.engine ≠ n := by
  rw [engineFree_iff]
  constructor
  · exact fun h j d hd => h d (List.mem_of_getElem? hd)
  · intro h d hd
    obtain ⟨j, hj⟩ := List.mem_iff_getElem?.mp hd
    exact h j d hj

theorem getElem?_set_cases {α : Type} {l : List α} {k j : Nat} {a b : α} (h : (l.set k a)[j]? = some b) :
    (j = k ∧ b = a) ∨ (j ≠ k ∧ l[j]? = some b) := by
  rw [List.getElem?_set] at h
  split at h
  · split at h
    · exact .inl ⟨Eq.symm ‹_›, (Option.some.inj h).symm⟩
    · cases h
  · exact .inr ⟨Ne.symm ‹_›, h⟩

section StepCall
variable {p : HostParams} {sys : HostSystem} {k : Nat} {c c' : Call} {e e' : State} {free : Bool}

/-- A call that holds its engine after its step is the only one to do so. -/
theorem engine_ne_of_holds (h : CallsInv p sys) (hc : sys.calls[k]? = some c)
    (htakes : c.holdsEngine = false → c'.holdsEngine = true → sys.engineFree c.engine = true)
    (hheld' : c'.holdsEngine = true) {j : Nat} {d : Call} (hjk : j ≠ k) (hd : sys.calls[j]? = some d)
    (hheld : d.holdsEngine = true) : d.engine ≠ c.engine := by
  cases hc' : c.holdsEngine with
  | true => exact fun hsame => hjk (h.exclusive hd hc hheld hc' hsame)
  | false => exact (engineFree_iff_getElem? sys c.engine).mp (htakes hc' hheld') j d hd hheld

/-- Call `k` and its engine in a new state keep the facts of all calls, where the call moves only an engine it holds and
takes only a free one. -/
theorem callsInv_set (h : CallsInv p sys) (hc : sys.calls[k]? = some c) (he : sys.engines[c.engine]? = some e)
    (hkeeps : StepKeeps p free c c' e') (hengine : c'.engine = c.engine) (hstill : c.holdsEngine = false → e' = e)
    (htakes : c.holdsEngine = false → c'.holdsEngine = true → sys.engineFree c.engine = true) :
    CallsInv p (HostSystem.mk (sys.calls.set k c') (sys.engines.set c.engine e')) where
  stage hd := by
    obtain ⟨-, rfl⟩ | ⟨-, hd'⟩ := getElem?_set_cases hd
    · exact hkeeps.stage
    · exact h.stage hd'
  hashing {j d f rest} hd hf hs := by
    obtain ⟨-, rfl⟩ | ⟨hjk, hd'⟩ := getElem?_set_cases hd
    · obtain ⟨-, rfl⟩ | ⟨hne, -⟩ := getElem?_set_cases hf
      · exact hkeeps.hashing rest hs
      · exact absurd hengine hne
    · obtain ⟨hsame, rfl⟩ | ⟨-, hf'⟩ := getElem?_set_cases hf
      · have hheld : d.holdsEngine = true := (holdsEngine_iff d).mpr ⟨rest, hs⟩
        have hc' : c.holdsEngine = false :=
          eq_false_of_ne_true fun hheld' => hjk (h.exclusive hd' hc hheld hheld' hsame)
        rw [hstill hc']
        exact h.hashing hd' (hsame ▸ he) hs
      · exact h.hashing hd' hf' hs
  free {n f} hf hfree := by
    rw [engineFree_iff_getElem?] at hfree
    have hk : k < sys.calls.length := (List.getElem?_eq_some_iff.mp hc).1
    have hothers {j : Nat} {d : Call} (hjk : j ≠ k) (hd : sys.calls[j]? = some d) (hheld : d.holdsEngine = true) :
        d.engine ≠ n := hfree j d ((List.getElem?_set_ne hjk.symm).trans hd) hheld
    obtain ⟨rfl, rfl⟩ | ⟨hne, hf⟩ := getElem?_set_cases hf
    · have hgiven : c'.holdsEngine = false :=
        eq_false_of_ne_true fun hheld => hfree k c' (List.getElem?_set_self hk) hheld hengine
      cases hc' : c.holdsEngine with
      | true => exact hkeeps.givesBack hc' hgiven
      | false =>
        rw [hstill hc']
        refine h.free he ((engineFree_iff_getElem? sys _).mpr fun j d hd hheld => hothers ?_ hd hheld)
        rintro rfl
        rw [Option.some.inj (hc.symm.trans hd), hheld] at hc'
        cases hc'
    · refine h.free hf ((engineFree_iff_getElem? sys _).mpr fun j d hd hheld => ?_)
      by_cases hjk : j = k
      · subst hjk
        rw [← Option.some.inj (hc.symm.trans hd)]
        exact hne.symm
      · exact hothers hjk hd hheld
  exclusive {i j a b} ha hb hheld hheld' hsame := by
    obtain ⟨rfl, rfl⟩ | ⟨hik, ha'⟩ := getElem?_set_cases ha
    · obtain ⟨rfl, -⟩ | ⟨hjk, hb'⟩ := getElem?_set_cases hb
      · rfl
      · exact absurd (hsame.symm.trans hengine) (engine_ne_of_holds h hc htakes hheld hjk hb' hheld')
    · obtain ⟨rfl, rfl⟩ | ⟨hjk, hb'⟩ := getElem?_set_cases hb
      · exact absurd (hsame.trans hengine) (engine_ne_of_holds h hc htakes hheld' hik ha' hheld)
      · exact h.exclusive ha' hb' hheld hheld' hsame

/-- The stepping call's own facts, from those of the system. -/
theorem callsInv_stepKeeps (hp : p.wf) (h : CallsInv p sys) (hc : sys.calls[k]? = some c)
    (he : sys.engines[c.engine]? = some e) :
    StepKeeps p (sys.engineFree c.engine) c (c.step p (sys.engineFree c.engine) e).1
      (c.step p (sys.engineFree c.engine) e).2 :=
  callStep_stepKeeps hp (h.stage hc) (fun _ hs => h.hashing hc he hs) (h.free he)

end StepCall

theorem stepCall_keeps_callsInv {p : HostParams} (hp : p.wf) (k : Nat) {sys : HostSystem} (h : CallsInv p sys) :
    CallsInv p (sys.stepCall p k) := by
  cases hc : sys.calls[k]? with
  | none => simpa only [HostSystem.stepCall, hc] using h
  | some c =>
    cases he : sys.engines[c.engine]? with
    | none => simpa only [HostSystem.stepCall, hc, he] using h
    | some e =>
      rw [stepCall_moves hc he]
      exact callsInv_set h hc he (callsInv_stepKeeps hp h hc he) (callStep_keeps p _ c e).2.2 callStep_engine
        callStep_takes_free

theorem run_keeps_callsInv {p : HostParams} (hp : p.wf) (sched : List Nat) {sys : HostSystem} (h : CallsInv p sys) :
    CallsInv p (sys.run p sched) := by
  induction sched generalizing sys with
  | nil => exact h
  | cons k ks ih => exact ih (stepCall_keeps_callsInv hp k h)

/-! ### What a call was called with -/

/-- What a call was called with, and the engine it uses. -/
def Call.arguments (c : Call) : Collaborators × Request × Nat := (c.collaborators, c.request, c.engine)

theorem callStep_arguments (p : HostParams) (free : Bool) (c : Call) (e : State) :
    (c.step p free e).1.arguments = c.arguments := by
  obtain ⟨hcollaborators, hrequest, hengine⟩ := callStep_keeps p free c e
  rw [Call.arguments, hcollaborators, hrequest, hengine]
  rfl

theorem stepCall_arguments (p : HostParams) (k : Nat) (sys : HostSystem) :
    (sys.stepCall p k).calls.map Call.arguments = sys.calls.map Call.arguments := by
  cases hc : sys.calls[k]? with
  | none => simp only [HostSystem.stepCall, hc]
  | some c =>
    cases he : sys.engines[c.engine]? with
    | none => simp only [HostSystem.stepCall, hc, he]
    | some e =>
      obtain ⟨hk, rfl⟩ := List.getElem?_eq_some_iff.mp hc
      rw [stepCall_moves hc he, List.map_set, callStep_arguments, ← List.map_set, List.set_getElem_self]

theorem run_arguments (p : HostParams) (sched : List Nat) (sys : HostSystem) :
    (sys.run p sched).calls.map Call.arguments = sys.calls.map Call.arguments := by
  induction sched generalizing sys with
  | nil => rfl
  | cons k ks ih => exact (ih (sys.stepCall p k)).trans (stepCall_arguments p k sys)

/-! ### A call that has returned -/

/-- A call that has returned holds nothing and has its own report. -/
theorem report_of_done {p : HostParams} {sys : HostSystem} (h : CallsInv p sys) {k : Nat} {d : Call} {status : Int}
    (hd : sys.calls[k]? = some d) (hs : d.stage = .done status) :
    d.input = none ∧ d.output = none ∧ callReport p d.collaborators d.request = (status, d.events) := by
  have hstage := h.stage hd
  simpa only [StageInv, hs] using hstage

/-! ### A call comes to its return -/

/-- Where no other call holds an engine, a call comes to its return by its own steps. -/
theorem exists_run_done {p : HostParams} (hp : p.wf) {k n : Nat} {sys : HostSystem} {c : Call} (h : CallsInv p sys)
    (hc : sys.calls[k]? = some c) (he : c.engine < sys.engines.length) (hleft : c.stepsLeft ≤ n)
    (hothers : ∀ (j : Nat) (d : Call), j ≠ k → sys.calls[j]? = some d → d.holdsEngine = false) :
    ∃ (m : Nat) (d : Call) (status : Int), (sys.run p (List.replicate m k)).calls[k]? = some d ∧
      d.stage = .done status := by
  induction n generalizing sys c with
  | zero =>
    obtain ⟨status, hs⟩ := stage_done_of_stepsLeft_eq_zero (Nat.le_zero.mp hleft)
    exact ⟨0, c, status, hc, hs⟩
  | succ n ih =>
    obtain hzero | hpos := Nat.eq_zero_or_pos c.stepsLeft
    · obtain ⟨status, hs⟩ := stage_done_of_stepsLeft_eq_zero hzero
      exact ⟨0, c, status, hc, hs⟩
    · have he' : sys.engines[c.engine]? = some sys.engines[c.engine] := List.getElem?_eq_getElem he
      have hk : k < sys.calls.length := (List.getElem?_eq_some_iff.mp hc).1
      have hturn : c.holdsEngine = false → sys.engineFree c.engine = true := by
        intro hidle
        refine (engineFree_iff_getElem? sys _).mpr fun j d hd hheld => ?_
        by_cases hjk : j = k
        · subst hjk
          rw [← Option.some.inj (hc.symm.trans hd), hidle] at hheld
          cases hheld
        · cases (hothers j d hjk hd).symm.trans hheld
      have hadvances := (callsInv_stepKeeps hp h hc he').advances hturn hpos
      have hengine := (callStep_keeps p (sys.engineFree c.engine) c sys.engines[c.engine]).2.2
      have hnext := stepCall_keeps_callsInv hp k h
      rw [stepCall_moves hc he'] at hnext
      obtain ⟨m, d, status, hd, hs⟩ := ih hnext (List.getElem?_set_self hk)
        (by rw [hengine, List.length_set]; exact he) (by omega)
        (fun j d hjk hd => hothers j d hjk ((List.getElem?_set_ne hjk.symm).symm.trans hd))
      refine ⟨m + 1, d, status, ?_, hs⟩
      rwa [List.replicate_succ, run_cons, stepCall_moves hc he']

/-- Settles O54: an engine of several moves by its own steps only; a call that has returned has its own report, which is that of
`serve`; and alone with its engine a call advances with each step. -/
theorem instancesDoNotInterfere : Obligations.InstancesDoNotInterfere := by
  refine ⟨fun sched sys j s hs => runSchedule_getElem? sched hs, fun p sys hp hstart hengines => ?_⟩
  have hinv : CallsInv p sys := callsInv_start hstart hengines
  refine ⟨fun sched k c d status hc hd hs => ?_, fun k c hc he => ?_⟩
  · obtain ⟨hin, hout, hreport⟩ := report_of_done (run_keeps_callsInv hp sched hinv) hd hs
    have harguments : d.arguments = c.arguments := by
      have hmap := congrArg (·[k]?) (run_arguments p sched sys)
      simpa only [List.getElem?_map, hc, hd, Option.map_some, Option.some.injEq] using hmap
    obtain ⟨hcollaborators, hrequest, -⟩ : d.collaborators = c.collaborators ∧ d.request = c.request ∧
        d.engine = c.engine := by
      simpa only [Call.arguments, Prod.mk.injEq] using harguments
    rw [hcollaborators, hrequest] at hreport
    refine ⟨hin, hout, fun s hs' => ?_⟩
    obtain ⟨t, ht⟩ := serve_unfaulted hp c.collaborators c.request hs'
    rw [hreport] at ht
    exact ⟨t, ht⟩
  · refine exists_run_done hp hinv hc he le_rfl fun j d _ hd => ?_
    rw [hstart d (List.mem_of_getElem? hd)]
    rfl

end Sys2Proof.Machine
end
